-- ==== Sys2Proof/Word.lean ====
section
/-!
DEFINITION. The words of the JTAGscan TAP master (`00_scope.md` R9): everything is an unsigned bit
vector of a stated width, bit 0 the least significant.
-/

namespace Sys2Proof

/-- A 32-bit word: the operands of `SHIFT` and `ACC`, and `RES` (`10_state.md` R15). -/
abbrev Word := BitVec 32

/-- A command word, `cmd[79:0]` (`30_encoding.md` R60). -/
abbrev Command := BitVec 80

/-- A pin index, 8 bits (`20_memory.md` R41). -/
abbrev Pin := BitVec 8

/-- `PIN_NONE`, the index that means "no pin" (`00_scope.md` R7, decision D4). -/
abbrev pinNone : Pin := 0xFF#8

/-- `zext_32` of one bit (`00_scope.md` R9). -/
abbrev zextBit (b : Bool) : Word := (BitVec.ofBool b).setWidth 32

end Sys2Proof
end

