-- ==== Sys2Proof/Config.lean ====
section
/-!
DEFINITION. What an implementation fixes and what the spec leaves free: the configuration record of
`00_scope.md` R7, the parameters that have one value, and the free values.
-/

namespace Sys2Proof

/-- The parameters that R7 leaves OPEN. A claim holds for every record that meets `Config.wf`
(`WellFormed.lean`). DESIGN CHOICE (log 1): `ELIGIBLE` is written as its pins in rising order. -/
structure Config where
  /-- `ELIGIBLE`, a subset of 0..254, in rising order. -/
  eligible : List Nat
  /-- `T_HALF`, microseconds. -/
  tHalf : Nat
  /-- `N_RESET`, the TMS-high cycles of `RST`. -/
  nReset : Nat
  /-- `N_IDLE`, the TMS-low cycles that end `RST`. -/
  nIdle : Nat
  /-- `BYPASS_PATTERN`. -/
  pattern : Word
  deriving DecidableEq, Repr

/-- `MAX_SHIFT`, the streaming cycles of `BYP` (R7, decision D14). -/
abbrev Config.maxShift : Nat := 1024

/-- `IR_SHIFT_TMS`, the TMS word of the instruction shift in `BYP` (`30_encoding.md` R72, D10). -/
abbrev Config.irShiftTms : Word := 0x80#32

/-- `IR_SHIFT_TDI`, the 8-bit all-ones BYPASS instruction (`30_encoding.md` R72). -/
abbrev Config.irShiftTdi : Word := 0xFF#32

/-- The example record of `95_test_vectors.md`, with `T_HALF` = 1. DESIGN CHOICE (log 1), unsafe: the
reset state holds it, and no statement rests on it. -/
def Config.sample : Config :=
  { eligible := [0, 1, 2, 3, 4, 5, 6, 7], tHalf := 1, nReset := 6, nIdle := 1, pattern := 0xDEADBEEF#32 }

/-- The environment's answer to the `n`-th `PinRead` once the listed answers are used up: any value
(`49_target_environment.md` R170, `93_implementation_defined.md` U11, U6; log 5). -/
opaque Config.freeLevel : Nat → Bool

/-- `ACCW` between commands: any value (`93_implementation_defined.md` U12; log 6). -/
opaque Config.freeAccw : Nat → Word

/-- `REG` between commands: any value (U12; log 6). -/
opaque Config.freeReg : Nat → Word

/-- `CNT` between commands: any value (U12; log 6). -/
opaque Config.freeCnt : Nat → BitVec 11

/-- `SMP` between commands: any value (U12; log 6). -/
opaque Config.freeSmp : Nat → Bool

end Sys2Proof
end

