-- ==== Sys2Proof/Syntax.lean ====
section
/-!
DEFINITION. The commands of the block: one constructor for each row of the opcode map
(`30_encoding.md` R66), and the names they use.
-/

namespace Sys2Proof

/-- The four line roles, in the order of their field values 0 to 3 (`30_encoding.md` R65). -/
inductive Role where
  | tck
  | tms
  | tdo
  | tdi
  deriving DecidableEq, Repr

/-- The closed list of refusal reasons, in their order of priority (`60_exceptions.md` R194, R195).
A refusal is not a stop of the model: it sets `ERR` and the machine goes on (R193). -/
inductive RefuseReason where
  /-- The opcode is 0x00 or 0x0A to 0xFF. -/
  | reservedOpcode
  /-- A payload bit that the format marks reserved is 1. -/
  | reservedField
  /-- `SHIFT` with `width` above 32. -/
  | widthRange
  /-- `BIND` of a pin that is not eligible, or of `PIN_NONE` to a role other than TDI. -/
  | pinRange
  /-- TCK, TMS or TDO has no pin when a line-touching command starts. -/
  | roleUnbound
  /-- Two bound roles hold one pin when a line-touching command starts. -/
  | pinAlias
  deriving DecidableEq, Repr

/-- The nine commands. Operands are as `30_encoding.md` R61 to R65 lay them out. -/
inductive Instr where
  /-- `WRB tms, tdi` (R62, `40_transport.md` R96). -/
  | wrb (tms tdi : Bool)
  /-- `SHIFT tmsWord, tdiWord, width` (R63, `40_transport.md` R97). -/
  | shift (tmsWord tdiWord : Word) (width : BitVec 6)
  /-- `RST` (R61, `40_transport.md` R98). -/
  | rst
  /-- `CFG` (R61, `40_transport.md` R92). -/
  | cfg
  /-- `REL` (R61, `40_transport.md` R93). -/
  | rel
  /-- `RDID` (R61, `41_protocol.md` R121). -/
  | rdid
  /-- `BYP` (R61, `41_protocol.md` R123). -/
  | byp
  /-- `ACC code` (R64, `42_idcode_validator.md` R141). -/
  | acc (code : Word)
  /-- `BIND role, pin` (R65, `40_transport.md` R91). -/
  | bind (role : Role) (pin : Pin)
  deriving DecidableEq, Repr

end Sys2Proof
end

