-- ==== Sys2Proof/WellFormed.lean ====
section
/-!
DEFINITION. Which commands and which configuration records mean something before any state is looked
at.
-/

namespace Sys2Proof

/-- The operand constraints of `30_encoding.md` R66 that need no configuration: `width` is at most 32,
and `PIN_NONE` is an operand of `BIND` for TDI only. That `pin` is in `ELIGIBLE` is checked where the
configuration is known, in the meaning of `BIND`. -/
def Instr.wellFormed : Instr → Bool
  | .wrb _ _ => true
  | .shift _ _ width => decide (width ≤ 32#6)
  | .rst => true
  | .cfg => true
  | .rel => true
  | .rdid => true
  | .byp => true
  | .acc _ => true
  | .bind role pin => decide (pin = pinNone → role = .tdi)

/-- `ELIGIBLE` lists pins 0 to 254, each once, in rising order (`00_scope.md` R7). -/
def Config.eligibleOk (c : Config) : Bool :=
  c.eligible.all (fun p => decide (p < 255)) && decide (c.eligible.Pairwise (· < ·))

/-- `BYPASS_PATTERN` has bit 0 set and differs from each of its rotations by 1 to 31 places
(`00_scope.md` R7, R8). -/
def Config.patternOk (c : Config) : Bool :=
  c.pattern.getLsbD 0 && (List.range' 1 31).all (fun k => c.pattern.rotateLeft k != c.pattern)

/-- The configuration well-formedness check of `00_scope.md` R8. -/
def Config.wf (c : Config) : Bool :=
  c.eligibleOk && decide (0 < c.tHalf) && decide (6 ≤ c.nReset) && decide (1 ≤ c.nIdle) && c.patternOk

end Sys2Proof
end

