-- ==== Sys2Proof/Decode.lean ====
section
/-!
DEFINITION. The 80-bit command word (`30_encoding.md` sections 1 to 5): the opcode map, the decoder,
the encoder, the pseudo-commands and the assembler text.
-/

namespace Sys2Proof

/-- One row of the opcode map of `30_encoding.md` R66. -/
structure OpRow where
  mnemonic : String
  bits : Command
  mask : Command
  deriving DecidableEq, Repr

/-- The opcode map (R66), in its order. -/
def opcodeMap : List OpRow :=
  [ ⟨"WRB", 0x01000000000000000000#80, 0xFFFFFFFFFFFFFFFFFFFC#80⟩,
    ⟨"SHIFT", 0x02000000000000000000#80, 0xFF030000000000000000#80⟩,
    ⟨"RST", 0x03000000000000000000#80, 0xFFFFFFFFFFFFFFFFFFFF#80⟩,
    ⟨"CFG", 0x04000000000000000000#80, 0xFFFFFFFFFFFFFFFFFFFF#80⟩,
    ⟨"REL", 0x05000000000000000000#80, 0xFFFFFFFFFFFFFFFFFFFF#80⟩,
    ⟨"RDID", 0x06000000000000000000#80, 0xFFFFFFFFFFFFFFFFFFFF#80⟩,
    ⟨"BYP", 0x07000000000000000000#80, 0xFFFFFFFFFFFFFFFFFFFF#80⟩,
    ⟨"ACC", 0x08000000000000000000#80, 0xFFFFFFFFFFFF00000000#80⟩,
    ⟨"BIND", 0x09000000000000000000#80, 0xFFFFFFFFFFFFFFFFFC00#80⟩ ]

/-- All bits of `w` under the row's mask equal the row's bits (R66). -/
def OpRow.fits (r : OpRow) (w : Command) : Bool := w &&& r.mask == r.bits

/-- The mnemonic of a command, as the opcode map spells it. -/
def Instr.mnemonic : Instr → String
  | .wrb _ _ => "WRB"
  | .shift _ _ _ => "SHIFT"
  | .rst => "RST"
  | .cfg => "CFG"
  | .rel => "REL"
  | .rdid => "RDID"
  | .byp => "BYP"
  | .acc _ => "ACC"
  | .bind _ _ => "BIND"

/-- The opcode of a command (R66). -/
def Instr.opc : Instr → BitVec 8
  | .wrb _ _ => 0x01#8
  | .shift _ _ _ => 0x02#8
  | .rst => 0x03#8
  | .cfg => 0x04#8
  | .rel => 0x05#8
  | .rdid => 0x06#8
  | .byp => 0x07#8
  | .acc _ => 0x08#8
  | .bind _ _ => 0x09#8

/-- The role of a field value: 0 TCK, 1 TMS, 2 TDO, 3 TDI (R65). -/
def roleOfField (v : BitVec 2) : Role :=
  if v = 0#2 then .tck else if v = 1#2 then .tms else if v = 2#2 then .tdo else .tdi

/-- The field value of a role (R65). -/
def fieldOfRole : Role → BitVec 2
  | .tck => 0#2
  | .tms => 1#2
  | .tdo => 2#2
  | .tdi => 3#2

/-- Bits 79:72 of a command word (R60). -/
def opcField (w : Command) : BitVec 8 := w.extractLsb' 72 8

/-- Format Z: no operand, bits 71:0 reserved (R61). -/
def decodeFormatZ (i : Instr) (w : Command) : Except RefuseReason Instr :=
  if w.extractLsb' 0 72 ≠ 0#72 then .error .reservedField else .ok i

/-- Format B: `tms` in bit 0, `tdi` in bit 1, bits 71:2 reserved (R62). -/
def decodeFormatB (w : Command) : Except RefuseReason Instr :=
  if w.extractLsb' 2 70 ≠ 0#70 then .error .reservedField
  else .ok (.wrb (w.getLsbD 0) (w.getLsbD 1))

/-- Format S: `width` in 71:66, 65:64 reserved, `tmsWord` in 63:32, `tdiWord` in 31:0 (R63). A reserved
bit is reported before a `width` above 32 (`60_exceptions.md` R195). -/
def decodeFormatS (w : Command) : Except RefuseReason Instr :=
  if w.extractLsb' 64 2 ≠ 0#2 then .error .reservedField
  else if ¬ (w.extractLsb' 66 6 ≤ 32#6) then .error .widthRange
  else .ok (.shift (w.extractLsb' 32 32) (w.extractLsb' 0 32) (w.extractLsb' 66 6))

/-- Format C: `code` in 31:0, 71:32 reserved (R64). -/
def decodeFormatC (w : Command) : Except RefuseReason Instr :=
  if w.extractLsb' 32 40 ≠ 0#40 then .error .reservedField else .ok (.acc (w.extractLsb' 0 32))

/-- Format P: `role` in 9:8, `pin` in 7:0, 71:10 reserved (R65). `PIN_NONE` for a role other than TDI is
refused here (R68 (d)); a pin outside `ELIGIBLE` is refused where the configuration is known (log 10). -/
def decodeFormatP (w : Command) : Except RefuseReason Instr :=
  if w.extractLsb' 10 62 ≠ 0#62 then .error .reservedField
  else if w.extractLsb' 0 8 = pinNone ∧ roleOfField (w.extractLsb' 8 2) ≠ .tdi then .error .pinRange
  else .ok (.bind (roleOfField (w.extractLsb' 8 2)) (w.extractLsb' 0 8))

/-- The decoder: total, and it rejects by name (R66, R68; priority R195). -/
def decode (w : Command) : Except RefuseReason Instr :=
  if opcField w = 0x01#8 then decodeFormatB w
  else if opcField w = 0x02#8 then decodeFormatS w
  else if opcField w = 0x03#8 then decodeFormatZ .rst w
  else if opcField w = 0x04#8 then decodeFormatZ .cfg w
  else if opcField w = 0x05#8 then decodeFormatZ .rel w
  else if opcField w = 0x06#8 then decodeFormatZ .rdid w
  else if opcField w = 0x07#8 then decodeFormatZ .byp w
  else if opcField w = 0x08#8 then decodeFormatC w
  else if opcField w = 0x09#8 then decodeFormatP w
  else .error .reservedOpcode

/-- The encoder, from the same format tables (R61 to R65): the fields from bit 79 down. -/
def encode : Instr → Command
  | .wrb tms tdi => 0x01#8 ++ 0#70 ++ BitVec.ofBool tdi ++ BitVec.ofBool tms
  | .shift tmsWord tdiWord width => 0x02#8 ++ width ++ 0#2 ++ tmsWord ++ tdiWord
  | .rst => 0x03#8 ++ 0#72
  | .cfg => 0x04#8 ++ 0#72
  | .rel => 0x05#8 ++ 0#72
  | .rdid => 0x06#8 ++ 0#72
  | .byp => 0x07#8 ++ 0#72
  | .acc code => 0x08#8 ++ 0#40 ++ code
  | .bind role pin => 0x09#8 ++ 0#62 ++ fieldOfRole role ++ pin

/-- The low `nbits` bits of `w` as a command word: bit 0 is `cmd[0]`, every bit above `nbits` is 0. -/
def commandOfBits (nbits w : Nat) : Command := BitVec.ofNat 80 (w % 2 ^ nbits)

/-- What the decoder reads from the instruction whose `nbits` bits are `w`. -/
def decodeTableWord (nbits w : Nat) : Option Instr :=
  match decode (commandOfBits nbits w) with
  | .ok i => some i
  | .error _ => none

/-- `TO_SHIFT_DR` (R70, R71). -/
def toShiftDr : Instr := .shift 0b001#32 0#32 3#6

/-- `TO_SHIFT_IR` (R70, R71). -/
def toShiftIr : Instr := .shift 0b0011#32 0#32 4#6

/-- `LOAD_BYPASS` (R70, R72). -/
def loadBypass : Instr := .shift 0x80#32 0xFF#32 8#6

/-- `IR_TO_SHIFT_DR` (R70, R71). -/
def irToShiftDr : Instr := .shift 0b0011#32 0#32 4#6

/-- `CAPTURE32` (R70). -/
def capture32 : Instr := .shift 0#32 0#32 32#6

/-- The name of a role in assembler text (R69). -/
def roleText : Role → String
  | .tck => "TCK"
  | .tms => "TMS"
  | .tdo => "TDO"
  | .tdi => "TDI"

/-- The assembler text of a command, operands in decimal (R69). -/
def assemblerText : Instr → String
  | .wrb tms tdi => "WRB " ++ toString tms.toNat ++ ", " ++ toString tdi.toNat
  | .shift t d width =>
      "SHIFT " ++ toString t.toNat ++ ", " ++ toString d.toNat ++ ", " ++ toString width.toNat
  | .rst => "RST"
  | .cfg => "CFG"
  | .rel => "REL"
  | .rdid => "RDID"
  | .byp => "BYP"
  | .acc code => "ACC " ++ toString code.toNat
  | .bind role pin =>
      "BIND " ++ roleText role ++ ", " ++ (if pin = pinNone then "NONE" else toString pin.toNat)

end Sys2Proof
end

