-- ==== Sys2Proof/Machine/State.lean ====
section
/-!
DEFINITION. The state of the block (`10_state.md`), plain data, and its value after block reset (R25).
INVENTORY.md lists every field with its rule.
-/

namespace Sys2Proof.Machine

/-- The three directions of a line (`10_state.md` R13). -/
inductive Dir where
  /-- `IN`: passive input. -/
  | inp
  /-- `OUT`: driven output. -/
  | out
  /-- `INPU`: input with pull-up. -/
  | inpu
  deriving DecidableEq, Repr

/-- The two state elements of a pin: `DIR[p]` and the latch `OUTV[p]` (R13). -/
structure Line where
  dir : Dir
  outv : Bool
  deriving DecidableEq, Repr

/-- A passive input with its latch at 0: every eligible pin after reset (R25), and so what a pin reads
as that the state does not list. -/
def idleLine : Line := { dir := .inp, outv := false }

/-- The line events of a trace (R21). -/
inductive Event where
  /-- `M(p, m)`: the direction of pin `p` becomes `m`. -/
  | mode (p : Pin) (m : Dir)
  /-- `W(p, v)`: the latch of pin `p` becomes `v`. -/
  | write (p : Pin) (v : Bool)
  /-- `R(p) = b`: pin `p` was sampled as `b`. -/
  | read (p : Pin) (b : Bool)
  /-- `D(t)`: at least `t` microseconds pass. -/
  | delay (t : Nat)
  deriving DecidableEq, Repr

/-- The four binding registers (R11). -/
structure Bindings where
  tck : Pin
  tms : Pin
  tdo : Pin
  tdi : Pin
  deriving DecidableEq, Repr

/-- What the host can put on the block's inputs (R24): a command word, or the block reset. -/
inductive HostInput where
  | command (w : Command)
  | reset
  deriving DecidableEq, Repr

/-- The whole state. -/
structure State where
  /-- The configuration record (R23); the model's field, written by no step (log 1). -/
  cfg : Config
  /-- The binding registers `BIND` (R11). -/
  bind : Bindings
  /-- `DIR` and `OUTV` of the pins that are not idle, pins rising (R13; log 8). -/
  lines : List (Nat × Line)
  /-- `RES` (R15). -/
  res : Word
  /-- `BUSY` (R16). -/
  busy : Bool
  /-- `ERR` (R17). -/
  err : Bool
  /-- `ACCW` (R18). -/
  accw : Word
  /-- `REG` (R18). -/
  reg : Word
  /-- `CNT` (R18). -/
  cnt : BitVec 11
  /-- `SMP` (R18). -/
  smp : Bool
  /-- The sequencer position (R20). -/
  seqPos : Nat
  /-- `TRACE` (R21), newest event first (log 12). -/
  traceRev : List Event
  /-- The reasons of the refusals since reset, oldest first (`60_exceptions.md` R191); the model's
  field (log 3). -/
  reasons : List RefuseReason
  /-- The host's inputs still to come (R23); the model's field (log 4). -/
  host : List HostInput
  /-- The environment's next answers to `PinRead` (R23); the model's field (log 5). -/
  answers : List Bool
  /-- How many `PinRead` have happened; the model's field (log 5). -/
  reads : Nat
  /-- How often the working registers were given up; the model's field (log 6). -/
  draws : Nat
  deriving DecidableEq, Repr

/-- Why a step can stop with a fault. The block itself has none (`60_exceptions.md` R190). -/
inductive Fault where
  /-- Raised by a line-touching command whose bound pin is not in `ELIGIBLE`: such a pin does not exist
  (`20_memory.md` R41 to R45). No run from reset reaches it, since `BIND` refuses such a pin. Safe. -/
  | noSuchPin (p : Pin)
  deriving DecidableEq, Repr

/-- Why a step can be refused by the model. A refusal of the spec (R193) is not one of these: it is a
next state with `ERR` set. -/
inductive Refusal where
  /-- Raised by `exec` for a command without a meaning; no arm does. Safe. -/
  | notModelled (mnemonic : String)
  /-- Raised by `step` when the configuration record breaks a constraint of `00_scope.md` R7: R8 has the
  model refuse it before any command runs. Safe. -/
  | badConfig
  deriving DecidableEq, Repr

/-- The block after block reset (R25), with a given configuration record, nothing issued by the host and
no answer given. The working registers, which R25 leaves unspecified, are 0: DESIGN CHOICE (log 7),
unsafe. -/
def State.resetWith (c : Config) : State :=
  { cfg := c
    bind := { tck := pinNone, tms := pinNone, tdo := pinNone, tdi := pinNone }
    lines := []
    res := 0#32
    busy := false
    err := false
    accw := 0#32
    reg := 0#32
    cnt := 0#11
    smp := false
    seqPos := 0
    traceRev := []
    reasons := []
    host := []
    answers := []
    reads := 0
    draws := 0 }

/-- The machine after reset. Its configuration record is the example of `95_test_vectors.md`: DESIGN
CHOICE (log 1), unsafe. -/
def State.reset : State := State.resetWith Config.sample

end Sys2Proof.Machine
end

