-- ==== Sys2Proof/Machine/Ops.lean ====
section
/-!
DEFINITION. The named operations on the state: the pin space and the four line primitives
(`20_memory.md` R43 to R46), the working registers, block reset (`70_reset_and_hazards.md` R210), and
what the command port hands to the engine (`10_state.md` R24).
-/

namespace Sys2Proof.Machine

/-! ### The pin space -/

/-- The line of pin `p`; a pin that is not listed is idle (R25; log 8). -/
def lineAt : List (Nat × Line) → Nat → Line
  | [], _ => idleLine
  | (q, l) :: m, p => if p = q then l else lineAt m p

/-- The list without pin `p`. -/
def eraseLine (m : List (Nat × Line)) (p : Nat) : List (Nat × Line) :=
  m.filter (fun e => decide (e.1 ≠ p))

/-- The list with pin `p` at line `l`, in its place. -/
def insertLine : List (Nat × Line) → Nat → Line → List (Nat × Line)
  | [], p, l => [(p, l)]
  | (q, k) :: m, p, l =>
      if p < q then (p, l) :: (q, k) :: m
      else if p = q then (p, l) :: m
      else (q, k) :: insertLine m p l

/-- The pin space with the line of pin `p` set to `l`: an idle line is not listed. -/
def setLine (m : List (Nat × Line)) (p : Nat) (l : Line) : List (Nat × Line) :=
  if l = idleLine then eraseLine m p else insertLine m p l

/-- The canonical form of the pin space: pins strictly rising, no idle line listed. -/
def linesWf (m : List (Nat × Line)) : Bool :=
  decide (m.Pairwise (fun a b => a.1 < b.1)) && m.all (fun e => decide (e.2 ≠ idleLine))

/-- `p` is in `ELIGIBLE` (`00_scope.md` R7). -/
def isEligible (c : Config) (p : Pin) : Bool := c.eligible.contains p.toNat

/-- `DIR[p]` (`10_state.md` R13). -/
def dirAt (s : State) (p : Pin) : Dir := (lineAt s.lines p.toNat).dir

/-- `OUTV[p]` (`10_state.md` R13). -/
def outvAt (s : State) (p : Pin) : Bool := (lineAt s.lines p.toNat).outv

/-- The output `oe[p]` of the line port (R14). -/
def oeAt (s : State) (p : Pin) : Bool := decide (dirAt s p = .out)

/-- The output `out[p]` of the line port (R14). -/
def outAt (s : State) (p : Pin) : Bool := outvAt s p

/-- The output `pu[p]` of the line port (R14). -/
def puAt (s : State) (p : Pin) : Bool := decide (dirAt s p = .inpu)

/-- `TRACE`, oldest event first (R21). -/
def State.trace (s : State) : List Event := s.traceRev.reverse

/-! ### The line primitives -/

/-- Append an event to the trace; the sequencer position advances by one (R20, R21). -/
def emit (e : Event) (s : State) : State :=
  { s with traceRev := e :: s.traceRev, seqPos := s.seqPos + 1 }

/-- `PinMode(p, m)` (`20_memory.md` R43): the latch is unchanged. -/
def pinMode (p : Pin) (m : Dir) (s : State) : State :=
  emit (.mode p m)
    { s with lines := setLine s.lines p.toNat { dir := m, outv := (lineAt s.lines p.toNat).outv } }

/-- `PinWrite(p, v)` (R44): the latch is written whatever the direction is. -/
def pinWrite (p : Pin) (v : Bool) (s : State) : State :=
  emit (.write p v)
    { s with lines := setLine s.lines p.toNat { dir := (lineAt s.lines p.toNat).dir, outv := v } }

/-- The environment's answer to the next `PinRead`: the next listed one, else any value
(`49_target_environment.md` R170; log 5). -/
def nextAnswer (s : State) : Bool :=
  match s.answers with
  | [] => Config.freeLevel s.reads
  | b :: _ => b

/-- `SMP <- PinRead(p)` (R45; `40_transport.md` R96). A driven pin answers like any other (U6). -/
def pinSample (p : Pin) (s : State) : State :=
  emit (.read p (nextAnswer s))
    { s with smp := nextAnswer s, answers := s.answers.tail, reads := s.reads + 1 }

/-- `Wait(t)` (R46). -/
def waitFor (t : Nat) (s : State) : State := emit (.delay t) s

/-! ### The working registers -/

/-- `v` with its bit `i` set to `b`: the bit insertion of `41_protocol.md` R128 (a). -/
def insertBit (v : Word) (i : Nat) (b : Bool) : Word :=
  (v &&& ~~~(1#32 <<< i)) ||| (zextBit b <<< i)

/-- The reconstruction step of `BYP` (`41_protocol.md` R123, R128 (b)): shift right by one, the sample
into bit 31. -/
def shiftInTop (r : Word) (b : Bool) : Word := (r >>> 1) ||| (zextBit b <<< 31)

/-- No working register survives a command (`10_state.md` R18): each holds any value from here on
(`93_implementation_defined.md` U12; log 6). -/
def dropWork (s : State) : State :=
  { s with
    accw := Config.freeAccw s.draws
    reg := Config.freeReg s.draws
    cnt := Config.freeCnt s.draws
    smp := Config.freeSmp s.draws
    draws := s.draws + 1 }

/-! ### Block reset and the command port -/

/-- Block reset (`70_reset_and_hazards.md` R210, `10_state.md` R25): every state element at its reset
value, `TRACE` empty. Configuration, host inputs and environment are not the block's (log 9). -/
def blockReset (s : State) : State :=
  { State.resetWith s.cfg with
    host := s.host, answers := s.answers, reads := s.reads, draws := s.draws }

/-- What the block's inputs hand to the engine. -/
inductive Fetched where
  /-- Nothing is accepted: the host issues nothing, or `BUSY` is 1. -/
  | idle
  /-- The block reset input is asserted. -/
  | reset (s : State)
  /-- A command word is accepted. -/
  | command (w : Command) (s : State)
  deriving DecidableEq, Repr

/-- The next host input. A command is accepted only when `BUSY` = 0 (`10_state.md` R16, R24); block reset
is taken at any time (R210). -/
def fetch (s : State) : Fetched :=
  match s.host with
  | [] => .idle
  | .reset :: rest => .reset { s with host := rest }
  | .command w :: rest => if s.busy then .idle else .command w { s with host := rest }

end Sys2Proof.Machine
end

