-- ==== Sys2Proof/Machine/Flags.lean ====
section
/-!
DEFINITION. The two flags `BUSY` and `ERR` (`10_state.md` R16, R17), the result register's writes (R15)
and the refusal (`60_exceptions.md` R193), which takes the place of an exception: there is none, and so
no return from one (R190, R197, R198). The block has no carry, zero, overflow or condition codes (R17).
-/

namespace Sys2Proof.Machine

/-- The engine accepts a command: `BUSY` is 1, the sequencer starts at 0 (`10_state.md` R16, R20). -/
def accepted (s : State) : State := { s with busy := true, seqPos := 0 }

/-- The command is complete: `BUSY` is 0, and so the sequencer position is 0 (R16, R20). -/
def completed (s : State) : State := { s with busy := false, seqPos := 0 }

/-- `RES <- v` (R15). -/
def setRes (v : Word) (s : State) : State := { s with res := v }

/-- A refusal (`60_exceptions.md` R193): `ERR <- 1`, `BUSY` back to 0, the reason recorded by the model
(R191), and nothing else. -/
def refuse (r : RefuseReason) (s : State) : State :=
  completed { accepted s with err := true, reasons := s.reasons ++ [r] }

end Sys2Proof.Machine
end

