-- ==== Sys2Proof/Machine/Operands.lean ====
section
/-!
DEFINITION. Operand forms: the pins behind the roles (`LineCheck`, `40_transport.md` R90), the bits of a
shift word (`20_memory.md` R47), and the frame every line-touching command has.
-/

namespace Sys2Proof.Machine

/-- `BIND[r]` (`00_scope.md` R9, `10_state.md` R11). -/
def bindingOf (b : Bindings) : Role → Pin
  | .tck => b.tck
  | .tms => b.tms
  | .tdo => b.tdo
  | .tdi => b.tdi

/-- `BIND[r] <- p` (`40_transport.md` R91). -/
def setBinding (b : Bindings) (r : Role) (p : Pin) : Bindings :=
  match r with
  | .tck => { b with tck := p }
  | .tms => { b with tms := p }
  | .tdo => { b with tdo := p }
  | .tdi => { b with tdi := p }

/-- The names `ck`, `ms`, `do`, `di` that `LineCheck` sets (R90). `di` is `none` when TDI is unused. -/
structure Pins where
  ck : Pin
  ms : Pin
  dO : Pin
  di : Option Pin
  deriving DecidableEq, Repr

/-- The bindings that are not `PIN_NONE` (R90). -/
def boundPins (b : Bindings) : List Pin :=
  [b.tck, b.tms, b.tdo, b.tdi].filter (fun p => p ≠ pinNone)

/-- `LineCheck()` (R90). -/
def lineCheck (b : Bindings) : Except RefuseReason Pins :=
  if b.tck = pinNone ∨ b.tms = pinNone ∨ b.tdo = pinNone then .error .roleUnbound
  else if ¬ (boundPins b).Nodup then .error .pinAlias
  else .ok { ck := b.tck, ms := b.tms, dO := b.tdo, di := if b.tdi = pinNone then none else some b.tdi }

/-- The pins a line-touching command may touch (`20_memory.md` R41). -/
def pinList (p : Pins) : List Pin := [p.ck, p.ms, p.dO] ++ p.di.toList

/-- A bound pin that is not in `ELIGIBLE`, if there is one. -/
def missingPin (c : Config) (p : Pins) : Option Pin := (pinList p).find? (fun q => !isEligible c q)

/-- The frame of a line-touching command: `LineCheck` first (R90); on success `BUSY` is 1 for the
duration of the body (`10_state.md` R16). -/
def lineCommand (body : Pins → State → State) (s : State) : Host.Outcome State Fault Refusal :=
  match lineCheck s.bind with
  | .error r => .next (refuse r s)
  | .ok p =>
    match missingPin s.cfg p with
    | some q => .fault (.noSuchPin q)
    | none => .next (completed (body p (accepted s)))

/-- An action on TDI, skipped when TDI is unused (R95). -/
def onTdi (p : Pins) (act : Pin → State → State) (s : State) : State :=
  match p.di with
  | none => s
  | some di => act di s

/-- The TMS and TDI bits of `width` cycles in time order: least significant bit first (`20_memory.md`
R47). -/
def wordCycles (tmsWord tdiWord : Word) (width : Nat) : List (Bool × Bool) :=
  (List.range width).map (fun i => (tmsWord.getLsbD i, tdiWord.getLsbD i))

end Sys2Proof.Machine
end

