-- ==== Sys2Proof/Machine/Transport.lean ====
section
/-!
DEFINITION. The transport commands `BIND`, `CFG`, `REL`, `WRB`, `SHIFT`, `RST` (`40_transport.md`).
-/

namespace Sys2Proof.Machine

/-- The cycle body `Cycle(tms, tdi)` (R96, `20_memory.md` R51); its result is left in `SMP`. -/
def cycle (p : Pins) (tms tdi : Bool) (s : State) : State :=
  let s := pinWrite p.ms tms s
  let s := onTdi p (fun di => pinWrite di tdi) s
  let s := pinWrite p.ck true s
  let s := waitFor s.cfg.tHalf s
  let s := pinSample p.dO s
  let s := pinWrite p.ck false s
  waitFor s.cfg.tHalf s

/-- Cycles whose samples are discarded, one for each pair of a TMS and a TDI bit. -/
def runCycles (p : Pins) (cs : List (Bool × Bool)) (s : State) : State :=
  cs.foldl (fun s c => cycle p c.1 c.2 s) s

/-- The body of `CFG` (R92). -/
def cfgBody (p : Pins) (s : State) : State :=
  let s := pinMode p.ck .out s
  let s := pinWrite p.ck false s
  let s := pinMode p.ms .out s
  let s := pinWrite p.ms false s
  let s := pinMode p.dO .inpu s
  onTdi p (fun di s => pinWrite di false (pinMode di .out s)) s

/-- The body of `REL` (R93). -/
def relBody (p : Pins) (s : State) : State :=
  let s := pinMode p.ck .inp s
  let s := pinMode p.ms .inp s
  let s := pinMode p.dO .inp s
  onTdi p (fun di => pinMode di .inp) s

/-- The cycles of `RST` (R98): `N_RESET` with TMS high, `N_IDLE` with TMS low, TDI low. -/
def rstCycles (c : Config) : List (Bool × Bool) :=
  List.replicate c.nReset (true, false) ++ List.replicate c.nIdle (false, false)

/-- The body of `RST` (R98). -/
def rstBody (p : Pins) (s : State) : State := runCycles p (rstCycles s.cfg) s

/-- One turn of the loop of `SHIFT` (R97): cycle `i`, its sample into `ACCW[i]`. -/
def shiftTurn (p : Pins) (tmsWord tdiWord : Word) (s : State) (i : Nat) : State :=
  let s := cycle p (tmsWord.getLsbD i) (tdiWord.getLsbD i) s
  { s with accw := insertBit s.accw i s.smp }

/-- The loop of `SHIFT` (R97) from a cleared `ACCW`; the word is left in `ACCW`. -/
def shiftBody (p : Pins) (tmsWord tdiWord : Word) (width : Nat) (s : State) : State :=
  (List.range width).foldl (shiftTurn p tmsWord tdiWord) { s with accw := 0#32 }

/-- `BIND role, pin` (R91): no `LineCheck`, no line event. -/
def execBind (role : Role) (pin : Pin) (s : State) : Host.Outcome State Fault Refusal :=
  if isEligible s.cfg pin || (decide (pin = pinNone) && decide (role = .tdi)) then
    .next (completed { accepted s with bind := setBinding s.bind role pin })
  else .next (refuse .pinRange s)

/-- `CFG` (R92). -/
def execCfg (s : State) : Host.Outcome State Fault Refusal := lineCommand cfgBody s

/-- `REL` (R93). -/
def execRel (s : State) : Host.Outcome State Fault Refusal := lineCommand relBody s

/-- `WRB tms, tdi` (R96). -/
def execWrb (tms tdi : Bool) (s : State) : Host.Outcome State Fault Refusal :=
  lineCommand (fun p s =>
    let s := cycle p tms tdi s
    dropWork (setRes (zextBit s.smp) s)) s

/-- `SHIFT tmsWord, tdiWord, width` (R97). A `width` above 32, which no decoded word has, is refused as
R97 says. -/
def execShift (tmsWord tdiWord : Word) (width : BitVec 6) (s : State) :
    Host.Outcome State Fault Refusal :=
  if ¬ (width ≤ 32#6) then .next (refuse .widthRange s)
  else
    lineCommand (fun p s =>
      let s := shiftBody p tmsWord tdiWord width.toNat s
      dropWork (setRes s.accw s)) s

/-- `RST` (R98): `RES` is unchanged. -/
def execRst (s : State) : Host.Outcome State Fault Refusal :=
  lineCommand (fun p s => dropWork (rstBody p s)) s

end Sys2Proof.Machine
end

