-- ==== Sys2Proof/Machine/Validator.lean ====
section
/-!
DEFINITION. The IDCODE plausibility check and the command `ACC` (`42_idcode_validator.md`).
-/

namespace Sys2Proof.Machine

/-- `popcount(v)` (`00_scope.md` R9). -/
def popcount (v : Word) : Nat := (List.range 32).countP (fun i => v.getLsbD i)

/-- `code[11:1]`. The field places are PRESUMED by the spec (`30_encoding.md` R73; log 14). -/
def mfrField (code : Word) : BitVec 11 := code.extractLsb' 1 11

/-- `code[27:12]` (R73). -/
def partField (code : Word) : BitVec 16 := code.extractLsb' 12 16

/-- `code[31:28]` (R73). -/
def versionField (code : Word) : BitVec 4 := code.extractLsb' 28 4

/-- `accept(code)` (R140): all seven conditions hold. -/
def accept (code : Word) : Bool :=
  code.getLsbD 0
    && (mfrField code != 0#11 && mfrField code != 0x7FF#11)
    && (partField code != 0#16 && partField code != 0xFFFF#16)
    && versionField code != 0xF#4
    && decide (10 ≤ popcount code)
    && decide (10 ≤ popcount (~~~code))

/-- `ACC code` (R141): no `LineCheck`, no line event. -/
def execAcc (code : Word) (s : State) : Host.Outcome State Fault Refusal :=
  .next (completed (setRes (zextBit (accept code)) (accepted s)))

end Sys2Proof.Machine
end

