-- ==== Sys2Proof/Machine/Protocol.lean ====
section
/-!
DEFINITION. The operation sequencer: `RDID` and `BYP` (`41_protocol.md`).
-/

namespace Sys2Proof.Machine

/-- `SEQ_IDLE_TO_SHIFT_DR`: TMS 1, 0, 0, TDI low (`30_encoding.md` R71). -/
def seqIdleToShiftDr : List (Bool × Bool) := wordCycles 0b001#32 0#32 3

/-- `SEQ_IDLE_TO_SHIFT_IR`: TMS 1, 1, 0, 0, TDI low (R71). -/
def seqIdleToShiftIr : List (Bool × Bool) := wordCycles 0b0011#32 0#32 4

/-- The 8-bit BYPASS instruction: TDI all ones, TMS high with the last bit (R72). -/
def seqLoadBypass : List (Bool × Bool) := wordCycles Config.irShiftTms Config.irShiftTdi 8

/-- `SEQ_EXIT_IR_TO_SHIFT_DR`: TMS 1, 1, 0, 0, TDI low (R71). -/
def seqExitIrToShiftDr : List (Bool × Bool) := wordCycles 0b0011#32 0#32 4

/-- The word `RDID` returns for a captured word (`41_protocol.md` R121). -/
def acceptedOrZero (v : Word) : Word := if accept v then v else 0#32

/-- What follows `LineCheck` in `RDID` (R121). -/
def rdidBody (p : Pins) (s : State) : State :=
  let s := cfgBody p s
  let s := rstBody p s
  let s := runCycles p seqIdleToShiftDr s
  let s := shiftBody p 0#32 0#32 32 s
  setRes (acceptedOrZero s.accw) s

/-- `RDID` (R120, R121). -/
def execRdid (s : State) : Host.Outcome State Fault Refusal :=
  lineCommand (fun p s => dropWork (rdidBody p s)) s

/-- `Latency(c) = c - 32`, zero-extended (R124). For a legal configuration `c` is at least 32 (log 11). -/
def latency (c : BitVec 11) : Word := BitVec.ofNat 32 (c.toNat - 32)

/-- Streaming cycle `i` of `BYP` (R123): `BYPASS_PATTERN[i mod 32]` on TDI, the sample into `REG`, `i + 1`
into `CNT`. -/
def streamTurn (p : Pins) (i : Nat) (s : State) : State :=
  let s := cycle p false (s.cfg.pattern.getLsbD (i % 32)) s
  { s with reg := shiftInTop s.reg s.smp, cnt := BitVec.ofNat 11 (i + 1) }

/-- The streaming loop of `BYP` with `fuel` cycles left, at cycle `i`: it ends at the first match, or
with the sentinel 0 (R123). -/
def streamLoop (p : Pins) : (fuel i : Nat) → State → State
  | 0, _, s => setRes 0#32 s
  | fuel + 1, i, s =>
    let s := streamTurn p i s
    if s.reg = s.cfg.pattern then setRes (latency s.cnt) s else streamLoop p fuel (i + 1) s

/-- What follows `LineCheck` in `BYP`, up to the stream (R123). -/
def bypPreamble (p : Pins) (s : State) : State :=
  let s := cfgBody p s
  let s := rstBody p s
  let s := runCycles p seqIdleToShiftIr s
  let s := runCycles p seqLoadBypass s
  runCycles p seqExitIrToShiftDr s

/-- What follows `LineCheck` in `BYP` (R123). -/
def bypBody (p : Pins) (s : State) : State :=
  streamLoop p Config.maxShift 0 { bypPreamble p s with reg := 0#32, cnt := 0#11 }

/-- `BYP` (R120, R123). -/
def execByp (s : State) : Host.Outcome State Fault Refusal :=
  lineCommand (fun p s => dropWork (bypBody p s)) s

end Sys2Proof.Machine
end

