-- ==== Sys2Proof/Machine/Dispatch.lean ====
section
/-! DEFINITION. One arm per command (`30_encoding.md` R66). -/

namespace Sys2Proof.Machine

def exec (i : Instr) (s : State) : Host.Outcome State Fault Refusal :=
  match i with
  | .wrb tms tdi => Sys2Proof.Machine.execWrb tms tdi s
  | .shift tmsWord tdiWord width => Sys2Proof.Machine.execShift tmsWord tdiWord width s
  | .rst => Sys2Proof.Machine.execRst s
  | .cfg => Sys2Proof.Machine.execCfg s
  | .rel => Sys2Proof.Machine.execRel s
  | .rdid => Sys2Proof.Machine.execRdid s
  | .byp => Sys2Proof.Machine.execByp s
  | .acc code => Sys2Proof.Machine.execAcc code s
  | .bind role pin => Sys2Proof.Machine.execBind role pin s

end Sys2Proof.Machine
end

