-- ==== Sys2Proof/Machine/Step.lean ====
section
/-!
DEFINITION. One step: the block takes one input of the host, and runs a command from acceptance to
completion (`10_state.md` R10, R20; log 2).
-/

namespace Sys2Proof.Machine

/-- One step. An illegal configuration is refused before any command runs (`00_scope.md` R8). With
nothing to accept the block waits, all state retained (`60_exceptions.md` R202, log 4). A word that
does not decode is refused as R193 says. -/
def step (s : State) : Host.Outcome State Fault Refusal :=
  if s.cfg.wf then
    match fetch s with
    | .idle => .next s
    | .reset s' => .next (blockReset s')
    | .command w s' =>
      match decode w with
      | .error r => .next (refuse r s')
      | .ok i => exec i s'
  else .refused .badConfig

/-- `s` with the command word of `nbits` bits `w` presented on the command port and the port open, so
that the next step accepts and runs it (log 4). -/
def State.withFetchWord (s : State) (nbits w : Nat) : State :=
  { s with host := .command (commandOfBits nbits w) :: s.host, busy := false }

end Sys2Proof.Machine
end

