-- ==== Sys2Proof/Machine/HostSide.lean ====
section
/-!
DEFINITION. The host around the block (`43_host_sequences.md`): the two evaluators as command sequences
(R150 to R153), the diagnostic row (R154) and the pin search (R155 to R158). It is outside the block
(`00_scope.md` R4): no definition of the block uses this file (log 16). A failed step is `none`.
-/

namespace Sys2Proof.Machine

/-- The host issues one command and waits for it (R150). -/
def issue (i : Instr) (s : State) : Option State :=
  match step { s with host := .command (encode i) :: s.host } with
  | .next t => some t
  | _ => none

/-- The host issues commands one after another. -/
def issueAll : List Instr → State → Option State
  | [], s => some s
  | i :: is, s => (issue i s).bind (issueAll is)

/-- The host issues a command and reads `RES` (R150). -/
def issueRead (i : Instr) (s : State) : Option (Word × State) :=
  (issue i s).map (fun t => (t.res, t))

/-- The commands that bind TCK, TMS and TDO and mark TDI unused (R151). -/
def bindThree (a0 a1 a2 : Pin) : List Instr :=
  [.bind .tck a0, .bind .tms a1, .bind .tdo a2, .bind .tdi pinNone]

/-- The commands that bind all four roles (R152). -/
def bindFour (a0 a1 a2 a3 : Pin) : List Instr :=
  [.bind .tck a0, .bind .tms a1, .bind .tdo a2, .bind .tdi a3]

/-- The verdict of `testIdCode` on its three reads (R151). -/
def idCodeVerdict (v1 v2 v3 : Word) : Bool :=
  v1 != 0#32 && v1 != 0xFFFFFFFF#32 && v1 == v2 && v2 == v3

/-- The commands of `testIdCode(a0, a1, a2)` and its three reads (R151): bind, three reads whatever the
first returns, one release (R153). -/
def idCodeReads (a0 a1 a2 : Pin) (s : State) : Option ((Word × Word × Word) × State) := do
  let s ← issueAll (bindThree a0 a1 a2) s
  let (v1, s) ← issueRead .rdid s
  let (v2, s) ← issueRead .rdid s
  let (v3, s) ← issueRead .rdid s
  let s ← issue .rel s
  return ((v1, v2, v3), s)

/-- `testIdCode(a0, a1, a2)` (R151). -/
def testIdCode (a0 a1 a2 : Pin) (s : State) : Option (Bool × State) :=
  (idCodeReads a0 a1 a2 s).map (fun x => (idCodeVerdict x.1.1 x.1.2.1 x.1.2.2, x.2))

/-- `BYP`, then one release, with the count (R152, R153). -/
def bypassThenRelease (s : State) : Option (Word × State) := do
  let (n, s) ← issueRead .byp s
  let s ← issue .rel s
  return (n, s)

/-- The verdict of `testBypass` on the count: above 0 (R152). -/
def bypassVerdict (n : Word) : Bool := decide (0 < n.toNat)

/-- The count of `testBypass` with arity 1: only TDI is bound anew (R152). -/
def bypassCountOne (a0 : Pin) (s : State) : Option (Word × State) :=
  (issue (.bind .tdi a0) s).bind bypassThenRelease

/-- The count of `testBypass` with arity 4 (R152). -/
def bypassCountFour (a0 a1 a2 a3 : Pin) (s : State) : Option (Word × State) :=
  (issueAll (bindFour a0 a1 a2 a3) s).bind bypassThenRelease

/-- `testBypass` with arity 1 (R152). -/
def testBypassOne (a0 : Pin) (s : State) : Option (Bool × State) :=
  (bypassCountOne a0 s).map (fun x => (bypassVerdict x.1, x.2))

/-- `testBypass` with arity 4 (R152). -/
def testBypassFour (a0 a1 a2 a3 : Pin) (s : State) : Option (Bool × State) :=
  (bypassCountFour a0 a1 a2 a3 s).map (fun x => (bypassVerdict x.1, x.2))

/-- `DebugLevel` (R154), set by the excluded command dispatcher. -/
inductive DebugLevel where
  | quiet
  | normal
  | verbose
  deriving DecidableEq, Repr

/-- What `emitRow` is called with (R154). -/
structure ResultRow where
  includeTdiColumn : Bool
  bindings : Bindings
  resultValue : Word
  deriving DecidableEq, Repr

/-- An evaluator's call of `emitRow`: on acceptance, or from verbosity normal on (R151, R152). -/
def emittedRow (level : DebugLevel) (accepts : Bool) (row : ResultRow) : Option ResultRow :=
  if accepts || decide (level ≠ .quiet) then some row else none

/-- The row of `testIdCode`: no TDI column, the first read (R151). -/
def idCodeRow (level : DebugLevel) (v1 v2 v3 : Word) (s : State) : Option ResultRow :=
  emittedRow level (idCodeVerdict v1 v2 v3)
    { includeTdiColumn := false, bindings := s.bind, resultValue := v1 }

/-- The row of `testBypass`: with the TDI column, the count (R152). -/
def bypassRow (level : DebugLevel) (n : Word) (s : State) : Option ResultRow :=
  emittedRow level (bypassVerdict n) { includeTdiColumn := true, bindings := s.bind, resultValue := n }

/-- The assignments of `k` pairwise distinct pins out of `candidates`, in lexicographic order when the
candidates rise (R156). -/
def assignments : (k : Nat) → (candidates : List Pin) → List (List Pin)
  | 0, _ => [[]]
  | k + 1, candidates =>
    candidates.flatMap (fun p => (assignments k (candidates.erase p)).map (fun a => p :: a))

/-- The candidates of a search: the eligible pins less the blacklist, rising (R155, R156). -/
def candidatePins (c : Config) (blacklist : List Pin) : List Pin :=
  (c.eligible.map (fun n => BitVec.ofNat 8 n)).filter (fun p => !blacklist.contains p)

/-- The search over a list of assignments: stops at the first accepted one (R156, R157). The evaluator
acts on the block. -/
def searchList (evaluate : List Pin → State → Option (Bool × State)) :
    List (List Pin) → State → Option (Option (List Pin) × State)
  | [], s => some (none, s)
  | a :: rest, s =>
    match evaluate a s with
    | none => none
    | some (true, t) => some (some a, t)
    | some (false, t) => searchList evaluate rest t

/-- `PinAssigner` with arity `k` (R156 to R158): an arity above the number of candidates has no
assignment and fails at once. -/
def pinSearch (evaluate : List Pin → State → Option (Bool × State)) (k : Nat) (blacklist : List Pin)
    (s : State) : Option (Option (List Pin) × State) :=
  searchList evaluate (assignments k (candidatePins s.cfg blacklist)) s

end Sys2Proof.Machine
end

