-- ==== Sys2Proof/Machine/Target.lean ====
section
/-!
DEFINITION. The target as environment (`49_target_environment.md`): what a line shows it, the stubs of
R172 to R174 as answer lists, and the informative reference target of R176 and R177. It is outside the
block (`00_scope.md` R4): no definition of the block uses this file. The reference target is PRESUMED
by the spec, "from general knowledge" (log 15).
-/

namespace Sys2Proof.Machine

/-! ### The cycles of the two operations -/

/-- The cycles of `RDID` as pairs of TMS and TDI (`41_protocol.md` R121). -/
def rdidCycles (c : Config) : List (Bool × Bool) :=
  rstCycles c ++ seqIdleToShiftDr ++ List.replicate 32 (false, false)

/-- The cycles of `BYP` before the stream (R123). -/
def bypPreambleCycles (c : Config) : List (Bool × Bool) :=
  rstCycles c ++ seqIdleToShiftIr ++ seqLoadBypass ++ seqExitIrToShiftDr

/-- The first `n` streaming cycles of `BYP` (R123). -/
def streamCycles (c : Config) (n : Nat) : List (Bool × Bool) :=
  (List.range n).map (fun i => (false, c.pattern.getLsbD (i % 32)))

/-! ### The stubs -/

/-- The first `k` answers of the echo stub with delay `n` in the stream of `BYP` (R173). -/
def echoAnswers (c : Config) (n k : Nat) : List Bool :=
  (List.range k).map (fun j => if j < n then false else c.pattern.getLsbD ((j - n) % 32))

/-- The answers of the loopback stub to `width` cycles that drive `tdiWord` on TDI (R172). -/
def loopbackAnswers (tdiWord : Word) (width : Nat) : List Bool :=
  (List.range width).map (fun i => tdiWord.getLsbD i)

/-- The 32 answers of the fixed-capture stub with value `v` (R174). -/
def captureAnswers (v : Word) : List Bool := (List.range 32).map (fun i => v.getLsbD i)

/-! ### The reference target -/

/-- The states of a TAP controller (R176). -/
inductive TapState where
  | testLogicReset
  | runTestIdle
  | selectDrScan
  | captureDr
  | shiftDr
  | exit1Dr
  | pauseDr
  | exit2Dr
  | updateDr
  | selectIrScan
  | captureIr
  | shiftIr
  | exit1Ir
  | pauseIr
  | exit2Ir
  | updateIr
  deriving DecidableEq, Repr

/-- The next controller state at a rising edge of TCK with the given TMS (R176). -/
def tapNext : TapState → (tms : Bool) → TapState
  | .testLogicReset, tms => if tms then .testLogicReset else .runTestIdle
  | .runTestIdle, tms => if tms then .selectDrScan else .runTestIdle
  | .selectDrScan, tms => if tms then .selectIrScan else .captureDr
  | .captureDr, tms => if tms then .exit1Dr else .shiftDr
  | .shiftDr, tms => if tms then .exit1Dr else .shiftDr
  | .exit1Dr, tms => if tms then .updateDr else .pauseDr
  | .pauseDr, tms => if tms then .exit2Dr else .pauseDr
  | .exit2Dr, tms => if tms then .updateDr else .shiftDr
  | .updateDr, tms => if tms then .selectDrScan else .runTestIdle
  | .selectIrScan, tms => if tms then .testLogicReset else .captureIr
  | .captureIr, tms => if tms then .exit1Ir else .shiftIr
  | .shiftIr, tms => if tms then .exit1Ir else .shiftIr
  | .exit1Ir, tms => if tms then .updateIr else .pauseIr
  | .pauseIr, tms => if tms then .exit2Ir else .pauseIr
  | .exit2Ir, tms => if tms then .updateIr else .shiftIr
  | .updateIr, tms => if tms then .selectDrScan else .runTestIdle

/-- The controller after a list of cycles. -/
def tapRun (t : TapState) (cs : List (Bool × Bool)) : TapState :=
  cs.foldl (fun t c => tapNext t c.1) t

/-- The selected data register (R177); `other` stands for any register an instruction may select, with
what it captures. -/
inductive DataRegister where
  | idcode
  | bypass
  | other (captured : List Bool)
  deriving DecidableEq, Repr

/-- What is fixed of one reference device (R177). Registers are lists of bits, bit 0 first. -/
structure Device where
  /-- `ID`. -/
  id : Word
  /-- What the instruction register captures, `L` bits; R177 fixes its low two bits only. -/
  irCapture : List Bool
  /-- The data register an instruction other than all ones selects: instruction-dependent. -/
  select : List Bool → DataRegister

/-- The state of the reference target (R177). `q` is the level driven on TDO, none when not driven. -/
structure Target where
  tap : TapState
  sel : DataRegister
  irs : List Bool
  drs : List Bool
  q : Option Bool
  deriving DecidableEq, Repr

/-- A device that R177 describes: `L` from 1 to 8, capturing ...01. -/
def deviceOk (d : Device) : Bool :=
  decide (1 ≤ d.irCapture.length) && decide (d.irCapture.length ≤ 8)
    && decide (d.irCapture[0]? = some true) && d.irCapture[1]?.all (fun b => !b)

/-- What the data shift stage captures (R177). -/
def captured (d : Device) : DataRegister → List Bool
  | .idcode => captureAnswers d.id
  | .bypass => [false]
  | .other bits => bits

/-- One bit into the top of a shift stage, the lowest bit out (R177). -/
def shiftStage (stage : List Bool) (tdi : Bool) : List Bool :=
  if stage = [] then [] else stage.tail ++ [tdi]

/-- The rising edge of TCK (R177). -/
def risingEdge (d : Device) (tms tdi : Bool) (t : Target) : Target :=
  { tap := tapNext t.tap tms
    sel := if t.tap = .testLogicReset then .idcode else t.sel
    drs := if t.tap = .captureDr then captured d t.sel
      else if t.tap = .shiftDr then shiftStage t.drs tdi else t.drs
    irs := if t.tap = .captureIr then d.irCapture
      else if t.tap = .shiftIr then shiftStage t.irs tdi else t.irs
    q := t.q }

/-- The falling edge of TCK (R177). -/
def fallingEdge (d : Device) (t : Target) : Target :=
  { t with
    sel := if t.tap = .updateIr then (if t.irs.all id then .bypass else d.select t.irs)
      else if t.tap = .testLogicReset then .idcode else t.sel
    q := if t.tap = .shiftDr then t.drs.head?
      else if t.tap = .shiftIr then t.irs.head? else none }

/-- One cycle of the block as the reference target sees it (R177). The sample of the cycle is `t.q`, as
the falling edge before it left it. -/
def targetCycle (d : Device) (tms tdi : Bool) (t : Target) : Target :=
  fallingEdge d (risingEdge d tms tdi t)

/-- `answers` are samples the reference target can give in the cycles `cs` from state `t`: the driven
level where TDO is driven, anything where it is not (R175, R177). -/
def targetAnswers (d : Device) : (t : Target) → (cs : List (Bool × Bool)) → (answers : List Bool) → Bool
  | _, [], [] => true
  | t, c :: cs, b :: bs => t.q.all (fun v => b == v) && targetAnswers d (targetCycle d c.1 c.2 t) cs bs
  | _, _, _ => false

/-- The reference target after a list of cycles. -/
def targetRun (d : Device) (t : Target) (cs : List (Bool × Bool)) : Target :=
  cs.foldl (fun t c => targetCycle d c.1 c.2 t) t

end Sys2Proof.Machine
end

