-- ==== Sys2Proof/Safety.lean ====
section
/-!
DEFINITION. What a safe run is and the words the statements use: no refusal, lines passive, the
invariants of `10_state.md` R26, the states a run can reach, the event lists the rules write out, and
what a command leaves unchanged.
-/

namespace Sys2Proof.Machine

/-! ### Safe runs -/

/-- No command was refused since reset: the premise of a claim about a run (`60_exceptions.md` R193). -/
def noRefusal (s : State) : Prop := s.err = false

/-- The pins with `DIR` other than `IN` (`70_reset_and_hazards.md` R218). -/
def drivenPins (s : State) : List Nat :=
  (s.lines.filter (fun e => decide (e.2.dir ≠ .inp))).map (fun e => e.1)

/-- Every line is electrically passive: no pin has `DIR` other than `IN` (R218). -/
def allPassive (s : State) : Prop := drivenPins s = []

/-- A line-touching command can start: `LineCheck` gives the pins `p`, and they exist (`40_transport.md`
R90, `20_memory.md` R43). -/
def LinesReady (s : State) (p : Pins) : Prop :=
  lineCheck s.bind = .ok p ∧ missingPin s.cfg p = none

/-! ### Invariants -/

/-- A binding register holds `PIN_NONE` or an eligible pin (`10_state.md` R11, R26). -/
def pinLegal (c : Config) (p : Pin) : Prop := p = pinNone ∨ isEligible c p = true

/-- Every binding register is legal (R26). -/
def BindingsLegal (s : State) : Prop := ∀ r : Role, pinLegal s.cfg (bindingOf s.bind r)

/-- The pin space is in canonical form and lists eligible pins only (R13; log 8). -/
def LinesLegal (s : State) : Prop :=
  linesWf s.lines = true ∧ ∀ e ∈ s.lines, e.1 ∈ s.cfg.eligible

/-- The line of pin `p` after an event (`20_memory.md` R43, R44). -/
def lineAfter (p : Nat) (l : Line) : Event → Line
  | .mode q m => if q.toNat = p then { l with dir := m } else l
  | .write q v => if q.toNat = p then { l with outv := v } else l
  | .read _ _ => l
  | .delay _ => l

/-- The line of pin `p` that a trace leaves, from reset: the last direction and the last level it names
(`10_state.md` R13: written only by `PinMode` and `PinWrite`). -/
def lineOfTrace (tr : List Event) (p : Nat) : Line := tr.foldl (lineAfter p) idleLine

/-- The lines are what the trace since reset made them. -/
def LinesFollowTrace (s : State) : Prop := ∀ p : Nat, lineAt s.lines p = lineOfTrace s.trace p

/-- Between commands `BUSY` and the sequencer position are 0 (R20, R26). -/
def EngineIdle (s : State) : Prop := s.busy = false ∧ s.seqPos = 0

/-- `ERR` is 1 exactly when a refusal was recorded since reset (R17). -/
def ErrMarksRefusals (s : State) : Prop := s.err = true ↔ s.reasons ≠ []

/-- All of them. -/
structure StateInv (s : State) : Prop where
  bindings : BindingsLegal s
  lines : LinesLegal s
  trace : LinesFollowTrace s
  idle : EngineIdle s
  err : ErrMarksRefusals s

/-- The states the block can be in between commands with configuration `c`: from reset, with any host
inputs and any answers of the environment arriving between steps. -/
inductive Reachable (c : Config) : State → Prop where
  | reset : Reachable c (State.resetWith c)
  | inputs (s : State) (h : List HostInput) (a : List Bool) (hs : Reachable c s) :
      Reachable c { s with host := h, answers := a }
  | next (s t : State) (hs : Reachable c s) (ht : step s = .next t) : Reachable c t

/-! ### The environment's answers -/

/-- The environment's answer to the `k`-th `PinRead` from state `s` on: the `k`-th listed one, else any
value (`49_target_environment.md` R170). -/
def answerAt (s : State) (k : Nat) : Bool := (s.answers[k]?).getD (Config.freeLevel (s.reads + k))

/-- The answers number `k` to `k + n - 1`. -/
def answersFrom (s : State) (k n : Nat) : List Bool := (List.range n).map (fun i => answerAt s (k + i))

/-! ### Event lists -/

/-- The pin an event names. -/
def eventPin : Event → Option Pin
  | .mode p _ => some p
  | .write p _ => some p
  | .read p _ => some p
  | .delay _ => none

/-- An event without the sampled bit. -/
def withoutSample : Event → Event
  | .mode p m => .mode p m
  | .write p v => .write p v
  | .read p _ => .read p false
  | .delay t => .delay t

/-- The level event of TDI, absent when TDI is unused (`40_transport.md` R95). -/
def tdiWrite (p : Pins) (v : Bool) : List Event :=
  match p.di with
  | none => []
  | some di => [.write di v]

/-- The events of one cycle with sample `b` (`40_transport.md` R96). -/
def cycleEvents (c : Config) (p : Pins) (tms tdi b : Bool) : List Event :=
  [.write p.ms tms] ++ tdiWrite p tdi ++
    [.write p.ck true, .delay c.tHalf, .read p.dO b, .write p.ck false, .delay c.tHalf]

/-- The events of several cycles with the samples `bs`. -/
def cyclesEvents (c : Config) (p : Pins) (cs : List (Bool × Bool)) (bs : List Bool) : List Event :=
  (cs.zip bs).flatMap (fun x => cycleEvents c p x.1.1 x.1.2 x.2)

/-- The events of `CFG` (R92). -/
def cfgEvents (p : Pins) : List Event :=
  [.mode p.ck .out, .write p.ck false, .mode p.ms .out, .write p.ms false, .mode p.dO .inpu] ++
    (match p.di with
    | none => []
    | some di => [.mode di .out, .write di false])

/-- The events of `REL` (R93). -/
def relEvents (p : Pins) : List Event :=
  [.mode p.ck .inp, .mode p.ms .inp, .mode p.dO .inp] ++
    (match p.di with
    | none => []
    | some di => [.mode di .inp])

/-! ### What a command leaves -/

/-- The state after a refusal with reason `r`: `ERR` set, the reason recorded, `BUSY` 0, everything else
unchanged (`60_exceptions.md` R193). -/
def refusedState (r : RefuseReason) (s : State) : State :=
  { s with err := true, reasons := s.reasons ++ [r], busy := false, seqPos := 0 }

/-- `t` differs from `s` in the lines and the trace only, and the command is complete. -/
def LinesFrame (s t : State) : Prop :=
  t = { s with lines := t.lines, traceRev := t.traceRev, busy := false, seqPos := 0 }

/-- `t` is `s` after a complete command that ran `n` cycles: the bindings, `ERR`, the recorded reasons, the
configuration and the host's inputs are unchanged, `n` answers are used up, and the working registers,
`RES`, the lines and the trace may differ. -/
def RunFrame (n : Nat) (s t : State) : Prop :=
  t = { s with
        lines := t.lines, traceRev := t.traceRev, res := t.res
        accw := t.accw, reg := t.reg, cnt := t.cnt, smp := t.smp
        answers := s.answers.drop n, reads := s.reads + n, draws := s.draws + 1
        busy := false, seqPos := 0 }

/-- No pin but the bound ones changed its line. -/
def OtherLinesSame (p : Pins) (s t : State) : Prop :=
  ∀ q : Pin, q ∉ pinList p → dirAt t q = dirAt s q ∧ outvAt t q = outvAt s q

/-- The latches after a command whose last cycle drove `tms` and `tdi`, no direction changed
(`40_transport.md` R100). -/
def CycleLines (p : Pins) (tms tdi : Bool) (s t : State) : Prop :=
  (∀ q : Pin, dirAt t q = dirAt s q) ∧ outvAt t p.ck = false ∧ outvAt t p.ms = tms
    ∧ outvAt t p.dO = outvAt s p.dO ∧ (∀ di, p.di = some di → outvAt t di = tdi) ∧ OtherLinesSame p s t

/-- The lines after `RDID` or `BYP` with last TDI bit `tdi` (`41_protocol.md` R126). -/
def OperationLines (p : Pins) (tdi : Bool) (s t : State) : Prop :=
  dirAt t p.ck = .out ∧ dirAt t p.ms = .out ∧ dirAt t p.dO = .inpu
    ∧ outvAt t p.ck = false ∧ outvAt t p.ms = false ∧ outvAt t p.dO = outvAt s p.dO
    ∧ (∀ di, p.di = some di → dirAt t di = .out ∧ outvAt t di = tdi) ∧ OtherLinesSame p s t

/-- The reconstruction register of `BYP` after `k` streaming cycles with the samples `x 0`, `x 1`, …
(`41_protocol.md` R123). -/
def regAfter (x : Nat → Bool) : Nat → Word
  | 0 => 0#32
  | k + 1 => (regAfter x k >>> 1) ||| (zextBit (x k) <<< 31)

/-- The commands that perform `LineCheck` (`40_transport.md` R90). -/
def lineTouching : Instr → Bool
  | .wrb _ _ => true
  | .shift _ _ _ => true
  | .rst => true
  | .cfg => true
  | .rel => true
  | .rdid => true
  | .byp => true
  | .acc _ => false
  | .bind _ _ => false

/-- Commands executed one after another, none of them stopping. -/
def execAll : List Instr → State → Option State
  | [], s => some s
  | i :: is, s =>
    match exec i s with
    | .next t => execAll is t
    | _ => none

/-- The constraints of `00_scope.md` R7 on a configuration record, in the spec's words, with `ELIGIBLE`
written in rising order (log 1). -/
def ConfigLegal (c : Config) : Prop :=
  (∀ p ∈ c.eligible, p ≤ 254) ∧ c.eligible.Pairwise (· < ·) ∧ 0 < c.tHalf ∧ 6 ≤ c.nReset ∧ 1 ≤ c.nIdle
    ∧ c.pattern.getLsbD 0 = true
    ∧ ∀ k, 1 ≤ k → k ≤ 31 → c.pattern.rotateLeft k ≠ c.pattern

/-- Every state element at its reset value, the working registers left out (`10_state.md` R25). -/
def AtResetValues (s : State) : Prop :=
  (∀ r : Role, bindingOf s.bind r = pinNone) ∧ (∀ p : Pin, dirAt s p = .inp ∧ outvAt s p = false)
    ∧ s.res = 0#32 ∧ s.busy = false ∧ s.err = false ∧ s.seqPos = 0 ∧ s.trace = []

/-- The cycles of `RST`, `N_RESET + N_IDLE` (`70_reset_and_hazards.md` R228). -/
def rstCount (c : Config) : Nat := c.nReset + c.nIdle

end Sys2Proof.Machine
end

