-- ==== Sys2Proof/Certificates/Slice0/Obligations.lean ====
section
/-!
DEFINITION. The statements for the provers. Each docstring names the rule of spec/ it formalises, or says
that it is the model's choice and where that is logged. The answers of the environment are quantified in
every statement: `answerAt s k` is any value unless a hypothesis names it.
-/

open Sys2Proof Sys2Proof.Machine

/-! ### Encoding -/

/-- Decode and encode agree on every well-formed command (`30_encoding.md` R60 to R67). -/
def Obligations.DecodeOfEncode : Prop :=
  ∀ i : Instr, i.wellFormed = true → decode (encode i) = .ok i

/-- A word that decodes is the encoding of what it decodes to, and that is well-formed: no bit of a
command word is ignored (R60 to R67). -/
def Obligations.EncodeOfDecode : Prop :=
  ∀ (w : Command) (i : Instr), decode w = .ok i → encode i = w ∧ i.wellFormed = true

/-- The decoder and the opcode map of R66 agree: a decoded word fits exactly one row, the row of its
command, and a word fits no row exactly when it is refused for its opcode or a reserved field. -/
def Obligations.DecoderFollowsOpcodeMap : Prop :=
  (∀ (w : Command) (i : Instr), decode w = .ok i →
      ∃ r, opcodeMap.filter (fun r => r.fits w) = [r] ∧ r.mnemonic = i.mnemonic)
    ∧ ∀ w : Command, (∀ r ∈ opcodeMap, r.fits w = false) ↔
        (decode w = .error .reservedOpcode ∨ decode w = .error .reservedField)

/-- Words written out in `30_encoding.md` R70 and `40_transport.md` decode to the commands they stand for. -/
def Obligations.WrittenWordsDecode : Prop :=
  decode 0x01000000000000000001#80 = .ok (.wrb true false)
    ∧ decode 0x022000000080000000FF#80 = .ok loadBypass
    ∧ decode 0x020C0000000100000000#80 = .ok toShiftDr
    ∧ decode 0x0800000000004BA00477#80 = .ok (.acc 0x4BA00477#32)
    ∧ decode 0x09000000000000000204#80 = .ok (.bind .tdo 4#8)
    ∧ decode 0x090000000000000003FF#80 = .ok (.bind .tdi pinNone)
    ∧ decodeTableWord 80 0x06000000000000000000 = some .rdid

/-- The words R68 names are refused with the reason it names, when the port accepts them: only `ERR` and
the recorded reason change. -/
def Obligations.ReservedWordsAreRefused : Prop :=
  ∀ (s : State) (w : Command) (rest : List HostInput),
    s.cfg.wf = true → s.busy = false → s.host = .command w :: rest →
      ((opcField w = 0x00#8 ∨ 0x0A#8 ≤ opcField w) →
        step s = .next (refusedState .reservedOpcode { s with host := rest }))
      ∧ ((opcField w = 0x01#8 ∧ w.extractLsb' 2 70 ≠ 0#70
            ∨ opcField w = 0x02#8 ∧ w.extractLsb' 64 2 ≠ 0#2
            ∨ 0x03#8 ≤ opcField w ∧ opcField w ≤ 0x07#8 ∧ w.extractLsb' 0 72 ≠ 0#72
            ∨ opcField w = 0x08#8 ∧ w.extractLsb' 32 40 ≠ 0#40
            ∨ opcField w = 0x09#8 ∧ w.extractLsb' 10 62 ≠ 0#62) →
        step s = .next (refusedState .reservedField { s with host := rest }))
      ∧ (opcField w = 0x02#8 ∧ w.extractLsb' 64 2 = 0#2 ∧ 33#6 ≤ w.extractLsb' 66 6 →
        step s = .next (refusedState .widthRange { s with host := rest }))
      ∧ (opcField w = 0x09#8 ∧ w.extractLsb' 10 62 = 0#62
            ∧ (isEligible s.cfg (w.extractLsb' 0 8) = false ∧ w.extractLsb' 0 8 ≠ 0xFF#8
              ∨ w.extractLsb' 0 8 = 0xFF#8 ∧ w.extractLsb' 8 2 ≠ 3#2) →
        step s = .next (refusedState .pinRange { s with host := rest }))

/-! ### Reset, the command port, one step -/

/-- The reset values of `10_state.md` R25, for every configuration; the working registers, which R25
leaves unspecified, are not named. -/
def Obligations.ResetValues : Prop :=
  (∀ c : Config, AtResetValues (State.resetWith c)) ∧ AtResetValues State.reset

/-- Block reset, taken in any state and also when `BUSY` is 1, puts every state element at its reset value
(`70_reset_and_hazards.md` R210). That configuration, host inputs and answers stay is the model's choice
(log 9). -/
def Obligations.BlockResetIsTakenAnyTime : Prop :=
  ∀ (s : State) (rest : List HostInput), s.cfg.wf = true → s.host = .reset :: rest →
    ∃ t, step s = .next t ∧ AtResetValues t ∧ t.cfg = s.cfg ∧ t.host = rest ∧ t.answers = s.answers

/-- A step accepts the command word on the port when `BUSY` is 0, samples it once, and runs the command it
decodes to (`10_state.md` R24, `20_memory.md` R52). -/
def Obligations.StepRunsTheDecodedCommand : Prop :=
  ∀ (s : State) (w : Command) (rest : List HostInput) (i : Instr),
    s.cfg.wf = true → s.busy = false → s.host = .command w :: rest → decode w = .ok i →
      step s = exec i { s with host := rest }

/-- A command word presented with `withFetchWord` is what the next step runs. That the port is opened
(`BUSY` 0) is the model's choice (log 4). -/
def Obligations.PresentedCommandRuns : Prop :=
  ∀ (s : State) (i : Instr), s.cfg.wf = true → i.wellFormed = true →
    step (s.withFetchWord 80 (encode i).toNat) = exec i { s with busy := false }

/-- With `BUSY` 1 no command is accepted (`10_state.md` R16), and with nothing issued the engine is idle
with all state retained (`60_exceptions.md` R202). That the step then answers the same state is the
model's choice (logs 2 and 4). -/
def Obligations.NothingAcceptedNothingChanges : Prop :=
  ∀ s : State, s.cfg.wf = true →
    (s.host = [] → step s = .next s)
      ∧ ∀ w rest, s.host = .command w :: rest → s.busy = true → step s = .next s

/-- An illegal configuration record is refused before any command runs, and a legal one never is
(`00_scope.md` R7, R8; log 1 for the rising order). -/
def Obligations.OnlyIllegalConfigurationIsRefused : Prop :=
  ∀ s : State, step s = .refused .badConfig ↔ ¬ ConfigLegal s.cfg

/-! ### LineCheck and refusals -/

/-- `LineCheck` (`40_transport.md` R90): when it fails and with which reason, the pins it names when it
succeeds, and that every line-touching command makes it before anything else. -/
def Obligations.LineCheckRule : Prop :=
  (∀ b : Bindings,
    (lineCheck b = .error .roleUnbound ↔ b.tck = pinNone ∨ b.tms = pinNone ∨ b.tdo = pinNone)
    ∧ (lineCheck b = .error .pinAlias ↔
        ¬ (b.tck = pinNone ∨ b.tms = pinNone ∨ b.tdo = pinNone)
          ∧ ∃ q r : Role, q ≠ r ∧ bindingOf b q = bindingOf b r ∧ bindingOf b q ≠ pinNone)
    ∧ ∀ p : Pins, lineCheck b = .ok p ↔
        ¬ (b.tck = pinNone ∨ b.tms = pinNone ∨ b.tdo = pinNone)
          ∧ (¬ ∃ q r : Role, q ≠ r ∧ bindingOf b q = bindingOf b r ∧ bindingOf b q ≠ pinNone)
          ∧ p = { ck := b.tck, ms := b.tms, dO := b.tdo,
                  di := if b.tdi = pinNone then none else some b.tdi })
  ∧ ∀ (i : Instr) (s : State) (r : RefuseReason), lineTouching i = true → i.wellFormed = true →
      lineCheck s.bind = .error r → exec i s = .next (refusedState r s)

/-- A line-touching command whose bindings name a pin outside `ELIGIBLE` stops with `noSuchPin` before any
event. No run reaches such bindings; the fault is the model's choice (log 8). -/
def Obligations.MissingPinStops : Prop :=
  ∀ (i : Instr) (s : State) (p : Pins) (q : Pin), lineTouching i = true → i.wellFormed = true →
    lineCheck s.bind = .ok p → missingPin s.cfg p = some q → exec i s = .fault (.noSuchPin q)

/-- A command that records a refusal changes `ERR` and nothing else, and a command that records none leaves
`ERR` as it was (`60_exceptions.md` R193, R197). -/
def Obligations.RefusalChangesOnlyErr : Prop :=
  ∀ (i : Instr) (s t : State), exec i s = .next t →
    (t.reasons ≠ s.reasons → ∃ r, t = refusedState r s) ∧ (t.reasons = s.reasons → t.err = s.err)

/-- `ERR` once 1 stays 1 until block reset (`10_state.md` R17). -/
def Obligations.ErrIsSticky : Prop :=
  ∀ s t : State, step s = .next t → s.err = true → (∀ rest, s.host ≠ .reset :: rest) → t.err = true

/-! ### The commands -/

/-- `BIND` (`40_transport.md` R91): a legal pin is written to the one register and nothing else changes; any
other pin is refused. That the four working registers, open between commands (`10_state.md` R18), keep
their values is the model's choice (log 6). -/
def Obligations.BindRule : Prop :=
  ∀ (s : State) (role : Role) (pin : Pin),
    ((isEligible s.cfg pin = true ∨ (pin = pinNone ∧ role = .tdi)) →
      ∃ t, exec (.bind role pin) s = .next t
        ∧ (∀ r, bindingOf t.bind r = if r = role then pin else bindingOf s.bind r)
        ∧ t = { s with bind := t.bind, busy := false, seqPos := 0 })
    ∧ (¬ (isEligible s.cfg pin = true ∨ (pin = pinNone ∧ role = .tdi)) →
      exec (.bind role pin) s = .next (refusedState .pinRange s))

/-- `ACC` (`42_idcode_validator.md` R141): `RES` is 1 or 0, nothing else changes, whatever is bound. That
the four working registers, open between commands (`10_state.md` R18), keep their values is the model's
choice (log 6). -/
def Obligations.AccRule : Prop :=
  ∀ (s : State) (code : Word),
    exec (.acc code) s =
      .next { s with res := if accept code = true then 1#32 else 0#32, busy := false, seqPos := 0 }

/-- `accept` (`42_idcode_validator.md` R140): its seven conditions, over the code as a number. -/
def Obligations.AcceptRule : Prop :=
  ∀ code : Word, accept code = true ↔
    code.toNat % 2 = 1
      ∧ (code.toNat / 2 % 2 ^ 11 ≠ 0 ∧ code.toNat / 2 % 2 ^ 11 ≠ 0x7FF)
      ∧ (code.toNat / 2 ^ 12 % 2 ^ 16 ≠ 0 ∧ code.toNat / 2 ^ 12 % 2 ^ 16 ≠ 0xFFFF)
      ∧ code.toNat / 2 ^ 28 ≠ 0xF
      ∧ 10 ≤ (Finset.univ.filter (fun i : Fin 32 => code.getLsbD i.val = true)).card
      ∧ 10 ≤ (Finset.univ.filter (fun i : Fin 32 => code.getLsbD i.val = false)).card

/-- Consequences of `accept` (`42_idcode_validator.md` R142): the two constant words are rejected, an
accepted code has bit 0 set and 10 to 22 ones, and flipping its bit 0 makes it rejected. -/
def Obligations.AcceptConsequences : Prop :=
  accept 0x00000000#32 = false ∧ accept 0xFFFFFFFF#32 = false
    ∧ ∀ code : Word, accept code = true →
        code.getLsbD 0 = true ∧ 10 ≤ popcount code ∧ popcount code ≤ 22
          ∧ accept (code ^^^ 1#32) = false ∧ code ≠ 0#32 ∧ code ≠ 0xFFFFFFFF#32

/-- `CFG` (`40_transport.md` R92): its events in order, the lines it leaves (R100), and its frame.
That the four working registers, open between commands (`10_state.md` R18), keep their values is the
model's choice (log 6). -/
def Obligations.CfgRule : Prop :=
  ∀ s : State,
    (∀ r, lineCheck s.bind = .error r → exec .cfg s = .next (refusedState r s))
    ∧ ∀ p, LinesReady s p → ∃ t, exec .cfg s = .next t
        ∧ t.trace = s.trace ++ cfgEvents p ∧ OperationLines p false s t ∧ LinesFrame s t

/-- `REL` (`40_transport.md` R93): its events in order, the lines it leaves, and its frame. That
the four working registers, open between commands (`10_state.md` R18), keep their values is the model's
choice (log 6). -/
def Obligations.RelRule : Prop :=
  ∀ s : State,
    (∀ r, lineCheck s.bind = .error r → exec .rel s = .next (refusedState r s))
    ∧ ∀ p, LinesReady s p → ∃ t, exec .rel s = .next t
        ∧ t.trace = s.trace ++ relEvents p
        ∧ (∀ q ∈ pinList p, dirAt t q = .inp) ∧ (∀ q, outvAt t q = outvAt s q)
        ∧ OtherLinesSame p s t ∧ LinesFrame s t

/-- `WRB` (`40_transport.md` R96): the events of one cycle, the sample in `RES`, the latches, the frame. -/
def Obligations.WrbRule : Prop :=
  ∀ (s : State) (tms tdi : Bool),
    (∀ r, lineCheck s.bind = .error r → exec (.wrb tms tdi) s = .next (refusedState r s))
    ∧ ∀ p, LinesReady s p → ∃ t, exec (.wrb tms tdi) s = .next t
        ∧ t.res = (if answerAt s 0 = true then 1#32 else 0#32)
        ∧ t.trace = s.trace ++ cycleEvents s.cfg p tms tdi (answerAt s 0)
        ∧ CycleLines p tms tdi s t ∧ RunFrame 1 s t

/-- `SHIFT` (`40_transport.md` R97): `width` cycles, bit 0 first, sample `i` in bit `i` of `RES` and zeros
above, the latches of the last cycle (R100), no line change for width 0, and the frame; a width above 32
is refused. -/
def Obligations.ShiftRule : Prop :=
  ∀ (s : State) (tmsWord tdiWord : Word) (width : BitVec 6),
    (33#6 ≤ width → exec (.shift tmsWord tdiWord width) s = .next (refusedState .widthRange s))
    ∧ (width ≤ 32#6 →
      (∀ r, lineCheck s.bind = .error r →
        exec (.shift tmsWord tdiWord width) s = .next (refusedState r s))
      ∧ ∀ p, LinesReady s p → ∃ t, exec (.shift tmsWord tdiWord width) s = .next t
        ∧ (∀ i, i < 32 → t.res.getLsbD i = (decide (i < width.toNat) && answerAt s i))
        ∧ t.trace = s.trace ++ cyclesEvents s.cfg p
            ((List.range width.toNat).map (fun i => (tmsWord.getLsbD i, tdiWord.getLsbD i)))
            (answersFrom s 0 width.toNat)
        ∧ (width = 0#6 → t.lines = s.lines)
        ∧ (∀ n, width.toNat = n + 1 → CycleLines p (tmsWord.getLsbD n) (tdiWord.getLsbD n) s t)
        ∧ RunFrame width.toNat s t)

/-- `RST` (`40_transport.md` R98): `N_RESET` cycles with TMS high, `N_IDLE` with TMS low, TDI low, `RES`
unchanged, the latches left low, the frame. -/
def Obligations.RstRule : Prop :=
  ∀ s : State, s.cfg.wf = true →
    (∀ r, lineCheck s.bind = .error r → exec .rst s = .next (refusedState r s))
    ∧ ∀ p, LinesReady s p → ∃ t, exec .rst s = .next t
        ∧ t.res = s.res
        ∧ t.trace = s.trace ++ cyclesEvents s.cfg p
            (List.replicate s.cfg.nReset (true, false) ++ List.replicate s.cfg.nIdle (false, false))
            (answersFrom s 0 (s.cfg.nReset + s.cfg.nIdle))
        ∧ CycleLines p false false s t ∧ RunFrame (s.cfg.nReset + s.cfg.nIdle) s t

/-- `RDID` (`41_protocol.md` R120, R121): the events of `CFG`, `RST`, TMS 1, 0, 0 and 32 capture cycles;
`RES` is the captured word if `accept` passes, else 0; the lines of R126; the frame. -/
def Obligations.RdidRule : Prop :=
  ∀ s : State,
    (∀ r, lineCheck s.bind = .error r → exec .rdid s = .next (refusedState r s))
    ∧ ∀ p, LinesReady s p → ∃ t v, exec .rdid s = .next t
        ∧ (∀ i, i < 32 → v.getLsbD i = answerAt s (rstCount s.cfg + 3 + i))
        ∧ t.res = (if accept v = true then v else 0#32)
        ∧ t.trace = s.trace ++ cfgEvents p ++ cyclesEvents s.cfg p
            (List.replicate s.cfg.nReset (true, false) ++ List.replicate s.cfg.nIdle (false, false)
              ++ [(true, false), (false, false), (false, false)] ++ List.replicate 32 (false, false))
            (answersFrom s 0 (rstCount s.cfg + 35))
        ∧ OperationLines p false s t ∧ RunFrame (rstCount s.cfg + 35) s t

/-- `BYP` (`41_protocol.md` R123, R124): the events of `CFG`, `RST`, TMS 1, 1, 0, 0, the instruction, TMS
1, 1, 0, 0 and `n` streaming cycles; the first match of the reconstruction register ends the stream after
`n` cycles with result `n - 32`, and without a match it ends after 1024 with 0; a legal pattern streams at
least 32 cycles; the lines of R126; the frame. -/
def Obligations.BypRule : Prop :=
  ∀ s : State,
    (∀ r, lineCheck s.bind = .error r → exec .byp s = .next (refusedState r s))
    ∧ ∀ p, LinesReady s p → ∃ t n, exec .byp s = .next t ∧ 1 ≤ n ∧ n ≤ 1024
        ∧ (s.cfg.wf = true → 32 ≤ n)
        ∧ ((∀ j, 1 ≤ j → j < n →
            regAfter (fun k => answerAt s (rstCount s.cfg + 16 + k)) j ≠ s.cfg.pattern)
          ∧ (regAfter (fun k => answerAt s (rstCount s.cfg + 16 + k)) n = s.cfg.pattern
                ∧ t.res = BitVec.ofNat 32 (n - 32)
              ∨ regAfter (fun k => answerAt s (rstCount s.cfg + 16 + k)) n ≠ s.cfg.pattern
                ∧ n = 1024 ∧ t.res = 0#32))
        ∧ t.trace = s.trace ++ cfgEvents p ++ cyclesEvents s.cfg p
            (List.replicate s.cfg.nReset (true, false) ++ List.replicate s.cfg.nIdle (false, false)
              ++ [(true, false), (true, false), (false, false), (false, false)]
              ++ List.replicate 7 (false, true) ++ [(true, true)]
              ++ [(true, false), (true, false), (false, false), (false, false)]
              ++ (List.range n).map (fun i => (false, s.cfg.pattern.getLsbD (i % 32))))
            (answersFrom s 0 (rstCount s.cfg + 16 + n))
        ∧ OperationLines p (s.cfg.pattern.getLsbD ((n - 1) % 32)) s t
        ∧ RunFrame (rstCount s.cfg + 16 + n) s t

/-! ### What the operations measure -/

/-- With a legal pattern no match is possible before 32 streaming cycles, and the result of `BYP` is at most
992 (`41_protocol.md` R124, `00_scope.md` R8). -/
def Obligations.BypResultIsALatency : Prop :=
  ∀ (s : State) (p : Pins), s.cfg.wf = true → LinesReady s p →
    (∀ (x : Nat → Bool) (j : Nat), j < 32 → regAfter x j ≠ s.cfg.pattern)
      ∧ ∃ t, exec .byp s = .next t ∧ t.res.toNat ≤ 992

/-- Against the echo stub with delay `n`, `BYP` returns `n` up to 992 and 0 above
(`49_target_environment.md` R173). -/
def Obligations.BypReturnsTheEchoDelay : Prop :=
  ∀ (s : State) (p : Pins) (n : Nat), s.cfg.wf = true → LinesReady s p →
    answersFrom s (rstCount s.cfg + 16) 1024 = echoAnswers s.cfg n 1024 →
      ∃ t, exec .byp s = .next t ∧ t.res = (if n ≤ 992 then BitVec.ofNat 32 n else 0#32)

/-- Against a TDO line stuck at either level in the stream, `BYP` runs its whole budget and returns 0
(`41_protocol.md` R125 (c)). -/
def Obligations.BypOnAStuckLineIsZero : Prop :=
  ∀ (s : State) (p : Pins) (b : Bool), s.cfg.wf = true → LinesReady s p →
    answersFrom s (rstCount s.cfg + 16) 1024 = List.replicate 1024 b →
      ∃ t, exec .byp s = .next t ∧ t.res = 0#32 ∧ t.reads = s.reads + (rstCount s.cfg + 16 + 1024)

/-- Against the fixed-capture stub with value `v`, `RDID` returns `v` if `accept` passes, else 0
(`49_target_environment.md` R174). -/
def Obligations.RdidReturnsTheFixedCapture : Prop :=
  ∀ (s : State) (p : Pins) (v : Word), LinesReady s p →
    answersFrom s (rstCount s.cfg + 3) 32 = captureAnswers v →
      ∃ t, exec .rdid s = .next t ∧ t.res = (if accept v = true then v else 0#32)

/-- `RDID` returns 0 or a word that `accept` passes, so never a word with bit 0 clear but 0, and never all
ones (`41_protocol.md` R122 (c)). -/
def Obligations.RdidReturnsAcceptedOrZero : Prop :=
  ∀ (s : State) (p : Pins), LinesReady s p →
    ∃ t, exec .rdid s = .next t ∧ (t.res = 0#32 ∨ accept t.res = true) ∧ t.res ≠ 0xFFFFFFFF#32

/-- Against the loopback stub a `SHIFT` returns the bits it sent (`49_target_environment.md` R172). -/
def Obligations.ShiftLoopbackRoundTrip : Prop :=
  ∀ (s : State) (p : Pins) (tmsWord tdiWord : Word) (width : BitVec 6), width ≤ 32#6 → LinesReady s p →
    answersFrom s 0 width.toNat = loopbackAnswers tdiWord width.toNat →
      ∃ t, exec (.shift tmsWord tdiWord width) s = .next t
        ∧ t.res.toNat = tdiWord.toNat % 2 ^ width.toNat

/-! ### Equivalences -/

/-- A `SHIFT` of width 1 is a `WRB` (`40_transport.md` R101 (a)), in every state. That the working registers
end alike as well, at the same free values, is the model's choice (log 6). -/
def Obligations.ShiftOfOneIsWrb : Prop :=
  ∀ (s : State) (tmsWord tdiWord : Word),
    exec (.shift tmsWord tdiWord 1#6) s = exec (.wrb (tmsWord.getLsbD 0) (tdiWord.getLsbD 0)) s

/-- A `SHIFT` splits into two (`40_transport.md` R101 (b)): the same events and lines, and the results
combine. -/
def Obligations.ShiftSplits : Prop :=
  ∀ (s : State) (p : Pins) (tmsWord tdiWord : Word) (a b : Nat), a + b ≤ 32 → LinesReady s p →
    ∃ t u v, exec (.shift tmsWord tdiWord (BitVec.ofNat 6 (a + b))) s = .next t
      ∧ exec (.shift tmsWord tdiWord (BitVec.ofNat 6 a)) s = .next u
      ∧ exec (.shift (tmsWord >>> a) (tdiWord >>> a) (BitVec.ofNat 6 b)) u = .next v
      ∧ t.trace = v.trace ∧ t.lines = v.lines ∧ t.answers = v.answers
      ∧ t.res = u.res ||| (v.res <<< a)

/-- `RST` is a `SHIFT` but for `RES` when its cycles fit one word (`40_transport.md` R101 (c)). -/
def Obligations.RstIsAShift : Prop :=
  ∀ (s : State) (p : Pins), s.cfg.nReset + s.cfg.nIdle ≤ 32 → LinesReady s p →
    ∃ t u, exec .rst s = .next t
      ∧ exec (.shift (BitVec.ofNat 32 (2 ^ s.cfg.nReset - 1)) 0#32
          (BitVec.ofNat 6 (s.cfg.nReset + s.cfg.nIdle))) s = .next u
      ∧ t.trace = u.trace ∧ t.lines = u.lines ∧ t.res = s.res

/-- `RDID` is `CFG; RST; TO_SHIFT_DR; CAPTURE32` and then `accept` (`41_protocol.md` R127 (a)). -/
def Obligations.RdidIsItsTransportSequence : Prop :=
  ∀ (s : State) (p : Pins), LinesReady s p →
    ∃ t u, exec .rdid s = .next t ∧ execAll [.cfg, .rst, toShiftDr, capture32] s = some u
      ∧ t.trace = u.trace ∧ t.lines = u.lines ∧ t.answers = u.answers
      ∧ t.res = (if accept u.res = true then u.res else 0#32)

/-- `BYP` is `CFG; RST; TO_SHIFT_IR; LOAD_BYPASS; IR_TO_SHIFT_DR` and then one `WRB` for each streaming
cycle (`41_protocol.md` R127 (b)). -/
def Obligations.BypIsItsTransportSequence : Prop :=
  ∀ (s : State) (p : Pins), LinesReady s p →
    ∃ t u n, exec .byp s = .next t ∧ n ≤ 1024
      ∧ execAll ([.cfg, .rst, toShiftIr, loadBypass, irToShiftDr]
          ++ (List.range n).map (fun i => Instr.wrb false (s.cfg.pattern.getLsbD (i % 32)))) s = some u
      ∧ t.trace = u.trace ∧ t.lines = u.lines ∧ t.answers = u.answers

/-! ### Invariants -/

/-- A step keeps every binding register `PIN_NONE` or eligible (`10_state.md` R11, R26). -/
def Obligations.StepKeepsBindingsLegal : Prop :=
  ∀ s t : State, BindingsLegal s → step s = .next t → BindingsLegal t

/-- A step keeps the pin space canonical and inside `ELIGIBLE` (`10_state.md` R13; log 8). -/
def Obligations.StepKeepsLinesLegal : Prop :=
  ∀ s t : State, LinesLegal s → step s = .next t → LinesLegal t

/-- A step keeps every line at what the trace since reset made it: `DIR` and `OUTV` are written only by
`PinMode` and `PinWrite`, and each of these leaves its event (`10_state.md` R13, R21). -/
def Obligations.StepKeepsLinesFollowTrace : Prop :=
  ∀ s t : State, LinesFollowTrace s → step s = .next t → LinesFollowTrace t

/-- Between commands `BUSY` and the sequencer position are 0 (`10_state.md` R20, R26). -/
def Obligations.StepKeepsEngineIdle : Prop :=
  ∀ s t : State, EngineIdle s → step s = .next t → EngineIdle t

/-- A step keeps `ERR` at 1 exactly when a refusal was recorded since reset (`10_state.md` R17; the record
is the model's, log 3). -/
def Obligations.StepKeepsErrMarksRefusals : Prop :=
  ∀ s t : State, ErrMarksRefusals s → step s = .next t → ErrMarksRefusals t

/-- The invariants hold after reset, for every configuration. -/
def Obligations.ResetMeetsTheInvariants : Prop := ∀ c : Config, StateInv (State.resetWith c)

/-- Every reachable state meets the invariants and keeps its configuration, whatever the host issues and
the environment answers (`10_state.md` R23, R26). -/
def Obligations.ReachableStatesMeetTheInvariants : Prop :=
  ∀ (c : Config) (s : State), Reachable c s → StateInv s ∧ s.cfg = c

/-- From every reachable state of a legal configuration the machine goes on: it never stops in an error
state (`60_exceptions.md` R190, R191). -/
def Obligations.ReachableStatesNeverStop : Prop :=
  ∀ (c : Config) (s : State), c.wf = true → Reachable c s → ∃ t, step s = .next t

/-! ### Whole-machine rules -/

/-- For every command but `BYP` the events and the lines depend on no sample (`41_protocol.md` R129): other
answers change at most the sampled bits of the trace. -/
def Obligations.SamplesDoNotSteerEvents : Prop :=
  ∀ (i : Instr) (s t : State) (answers : List Bool) (reads : Nat), i ≠ .byp → exec i s = .next t →
    ∃ u, exec i { s with answers := answers, reads := reads } = .next u
      ∧ u.trace.map withoutSample = t.trace.map withoutSample ∧ u.lines = t.lines
      ∧ u.bind = t.bind ∧ u.err = t.err

/-- A command touches only pins that are bound when it starts: the trace grows by events that name no other
pin, and the lines of every other pin are unchanged (`20_memory.md` R41). -/
def Obligations.OnlyBoundPinsAreTouched : Prop :=
  ∀ (i : Instr) (s t : State) (q : Pin), exec i s = .next t → (∀ r : Role, bindingOf s.bind r ≠ q) →
    (∃ evs, t.trace = s.trace ++ evs ∧ ∀ e ∈ evs, eventPin e ≠ some q)
      ∧ dirAt t q = dirAt s q ∧ outvAt t q = outvAt s q

/-- After `REL` every line is passive if only bound pins were not (`70_reset_and_hazards.md` R218). -/
def Obligations.ReleaseLeavesLinesPassive : Prop :=
  ∀ (s : State) (p : Pins), LinesReady s p → linesWf s.lines = true →
    (∀ n ∈ drivenPins s, ∃ q ∈ pinList p, q.toNat = n) → ∃ t, exec .rel s = .next t ∧ allPassive t

/-- The events of each command, counted (`70_reset_and_hazards.md` R228): a cycle is 7 events, or 6 with TDI
unused. -/
def Obligations.EventCounts : Prop :=
  ∀ (s : State) (p : Pins), LinesReady s p →
    (∃ t, exec .cfg s = .next t ∧ t.trace.length = s.trace.length + (if p.di = none then 5 else 7))
    ∧ (∃ t, exec .rel s = .next t ∧ t.trace.length = s.trace.length + (if p.di = none then 3 else 4))
    ∧ (∀ tms tdi, ∃ t, exec (.wrb tms tdi) s = .next t
        ∧ t.trace.length = s.trace.length + (if p.di = none then 6 else 7))
    ∧ (∀ tmsWord tdiWord width, width ≤ 32#6 → ∃ t, exec (.shift tmsWord tdiWord width) s = .next t
        ∧ t.trace.length = s.trace.length + (if p.di = none then 6 else 7) * width.toNat)
    ∧ (∃ t, exec .rst s = .next t
        ∧ t.trace.length = s.trace.length + (if p.di = none then 6 else 7) * rstCount s.cfg)
    ∧ (∃ t, exec .rdid s = .next t ∧ t.trace.length = s.trace.length
        + (if p.di = none then 5 + 6 * (rstCount s.cfg + 35) else 7 + 7 * (rstCount s.cfg + 35)))
    ∧ ∃ t c, exec .byp s = .next t ∧ c ≤ 1024 ∧ (s.cfg.wf = true → 32 ≤ c)
        ∧ t.reads = s.reads + (rstCount s.cfg + 16 + c)
        ∧ t.trace.length = s.trace.length
          + (if p.di = none then 5 + 6 * (rstCount s.cfg + 16 + c)
              else 7 + 7 * (rstCount s.cfg + 16 + c))

/-! ### The host and the reference target -/

/-- `testIdCode` on three distinct eligible pins runs to its end from every state that meets the invariants,
leaves every line passive if it found them so, is never refused, and accepts only a word that `accept`
passes (`43_host_sequences.md` R151, R153). The evaluator as a function that issues commands beside the
block is the model's choice (log 16). -/
def Obligations.TestIdCodeEndsPassive : Prop :=
  ∀ (s : State) (a0 a1 a2 : Pin), s.cfg.wf = true → StateInv s → allPassive s →
    isEligible s.cfg a0 = true → isEligible s.cfg a1 = true → isEligible s.cfg a2 = true →
    a0 ≠ a1 → a0 ≠ a2 → a1 ≠ a2 →
      ∃ accepts t, testIdCode a0 a1 a2 s = some (accepts, t) ∧ allPassive t ∧ t.err = s.err
        ∧ t.bind = { tck := a0, tms := a1, tdo := a2, tdi := pinNone }
        ∧ (accepts = true → accept t.res = true)

/-- The search enumerates exactly the ordered choices of `k` pairwise distinct candidates, each once
(`43_host_sequences.md` R156, R157). That the search is the list of its assignments is the model's choice
(log 16). -/
def Obligations.SearchEnumeratesAssignments : Prop :=
  ∀ (k : Nat) (candidates : List Pin), candidates.Nodup →
    (assignments k candidates).length = candidates.length.descFactorial k
      ∧ (assignments k candidates).Nodup
      ∧ ∀ a, a ∈ assignments k candidates ↔ a.length = k ∧ a.Nodup ∧ ∀ p ∈ a, p ∈ candidates

/-- An arity above the number of candidates fails at once, with no evaluator call
(`43_host_sequences.md` R158). That the search is the list of its assignments, tried in order, is the
model's choice (log 16). -/
def Obligations.SearchTooWideFailsAtOnce : Prop :=
  ∀ (evaluate : List Pin → State → Option (Bool × State)) (k : Nat) (blacklist : List Pin) (s : State),
    (candidatePins s.cfg blacklist).length < k → pinSearch evaluate k blacklist s = some (none, s)

/-- `RST` takes the controller of a compliant target to Run-Test/Idle from every state
(`49_target_environment.md` R178 (a); the target is the one the spec presumes, log 15). -/
def Obligations.RstReachesRunTestIdle : Prop :=
  ∀ (c : Config) (t : TapState), c.wf = true → tapRun t (rstCycles c) = .runTestIdle

/-- Against the reference target in any state `RDID` returns its identification if `accept` passes, whatever
the TDI levels are, and leaves it in Shift-DR (`49_target_environment.md` R178 (b); the target is the one the
spec presumes, log 15). -/
def Obligations.RdidReadsTheReferenceTarget : Prop :=
  ∀ (s : State) (p : Pins) (d : Device) (t0 : Target) (cs : List (Bool × Bool)),
    s.cfg.wf = true → LinesReady s p →
    cs.map Prod.fst = (rdidCycles s.cfg).map Prod.fst →
    targetAnswers d t0 cs (answersFrom s 0 cs.length) = true →
      (∃ t, exec .rdid s = .next t ∧ t.res = (if accept d.id = true then d.id else 0#32))
        ∧ (targetRun d t0 cs).tap = .shiftDr

/-- Against the reference target in any state `BYP` returns 1 after 33 streaming cycles
(`49_target_environment.md` R178 (f); the target is the one the spec presumes, log 15). -/
def Obligations.BypReturnsOneOnTheReferenceTarget : Prop :=
  ∀ (s : State) (p : Pins) (d : Device) (t0 : Target),
    s.cfg.wf = true → LinesReady s p → p.di ≠ none → deviceOk d = true →
    targetAnswers d t0 (bypPreambleCycles s.cfg ++ streamCycles s.cfg 33)
      (answersFrom s 0 (rstCount s.cfg + 16 + 33)) = true →
      ∃ t, exec .byp s = .next t ∧ t.res = 1#32 ∧ t.reads = s.reads + (rstCount s.cfg + 16 + 33)
end

