-- ==== Sys2Proof/Laws/Lines.lean ====
section
/-!
SUPPORT. The pin space: a read after a write gives what was written, other pins are untouched, and every
write keeps the canonical form.
-/

namespace Sys2Proof.Machine

@[simp] theorem lineAt_nil (p : Nat) : lineAt [] p = idleLine := rfl

@[simp] theorem lineAt_cons (q : Nat) (l : Line) (m : List (Nat × Line)) (p : Nat) :
    lineAt ((q, l) :: m) p = if p = q then l else lineAt m p := rfl

/-- A pin that no entry names reads as idle. -/
theorem lineAt_of_not_listed {m : List (Nat × Line)} {p : Nat} (h : ∀ e ∈ m, e.1 ≠ p) :
    lineAt m p = idleLine := by
  induction m with
  | nil => rfl
  | cons e m ih =>
    obtain ⟨q, l⟩ := e
    have hq : p ≠ q := fun hp => h (q, l) (by simp) hp.symm
    simp [hq, ih (fun e he => h e (by simp [he]))]

theorem lineAt_eraseLine_same (m : List (Nat × Line)) (p : Nat) :
    lineAt (eraseLine m p) p = idleLine :=
  lineAt_of_not_listed (by simp [eraseLine])

theorem lineAt_eraseLine_of_ne (m : List (Nat × Line)) {p q : Nat} (h : q ≠ p) :
    lineAt (eraseLine m p) q = lineAt m q := by
  induction m with
  | nil => rfl
  | cons e m ih =>
    obtain ⟨k, l⟩ := e
    by_cases hk : k = p
    · have : q ≠ k := by omega
      simp_all [eraseLine]
    · simp_all [eraseLine]

theorem lineAt_insertLine_same (m : List (Nat × Line)) (p : Nat) (l : Line) :
    lineAt (insertLine m p l) p = l := by
  induction m with
  | nil => simp [insertLine]
  | cons e m ih =>
    obtain ⟨k, j⟩ := e
    unfold insertLine
    split
    · simp
    · split
      · simp
      · simp_all

theorem lineAt_insertLine_of_ne (m : List (Nat × Line)) {p q : Nat} (l : Line) (h : q ≠ p) :
    lineAt (insertLine m p l) q = lineAt m q := by
  induction m with
  | nil => simp [insertLine, h]
  | cons e m ih =>
    obtain ⟨k, j⟩ := e
    unfold insertLine
    split
    · simp [h]
    · split
      · simp_all
      · simp [ih]

/-- Read after write, the same pin. -/
@[simp] theorem lineAt_setLine_same (m : List (Nat × Line)) (p : Nat) (l : Line) :
    lineAt (setLine m p l) p = l := by
  unfold setLine
  split
  · next h => rw [lineAt_eraseLine_same, h]
  · exact lineAt_insertLine_same m p l

/-- Read after write, another pin. -/
theorem lineAt_setLine_of_ne (m : List (Nat × Line)) {p q : Nat} (l : Line) (h : q ≠ p) :
    lineAt (setLine m p l) q = lineAt m q := by
  unfold setLine
  split
  · exact lineAt_eraseLine_of_ne m h
  · exact lineAt_insertLine_of_ne m l h

/-- Both at once. -/
theorem lineAt_setLine (m : List (Nat × Line)) (p q : Nat) (l : Line) :
    lineAt (setLine m p l) q = if q = p then l else lineAt m q := by
  split
  · next h => rw [h, lineAt_setLine_same]
  · next h => exact lineAt_setLine_of_ne m l h

/-- What a write lists: the pin it names, or what was listed before. -/
theorem mem_setLine {m : List (Nat × Line)} {p : Nat} {l : Line} {e : Nat × Line}
    (h : e ∈ setLine m p l) : e = (p, l) ∨ e ∈ m := by
  unfold setLine at h
  split at h
  · exact .inr (List.mem_filter.mp h).1
  · clear * - h
    induction m with
    | nil => simp_all [insertLine]
    | cons k m ih =>
      obtain ⟨q, j⟩ := k
      unfold insertLine at h
      split at h
      · simpa using h
      · split at h
        · simp only [List.mem_cons] at h ⊢
          tauto
        · simp only [List.mem_cons] at h ⊢
          tauto

theorem linesWf_iff (m : List (Nat × Line)) :
    linesWf m = true ↔ m.Pairwise (fun a b => a.1 < b.1) ∧ ∀ e ∈ m, e.2 ≠ idleLine := by
  simp [linesWf]

theorem insertLine_pairwise {m : List (Nat × Line)} (p : Nat) (l : Line)
    (h : m.Pairwise (fun a b => a.1 < b.1)) :
    (insertLine m p l).Pairwise (fun a b => a.1 < b.1) := by
  induction m with
  | nil => simp [insertLine]
  | cons k m ih =>
    obtain ⟨q, j⟩ := k
    rw [List.pairwise_cons] at h
    unfold insertLine
    split
    · next hq =>
      refine List.pairwise_cons.mpr ⟨?_, List.pairwise_cons.mpr h⟩
      intro e he
      rcases List.mem_cons.mp he with rfl | he
      · exact hq
      · exact Nat.lt_trans hq (h.1 e he)
    · split
      · next hq => exact List.pairwise_cons.mpr ⟨fun e he => hq ▸ h.1 e he, h.2⟩
      · next h1 h2 =>
        refine List.pairwise_cons.mpr ⟨?_, ih h.2⟩
        intro e he
        have : e = (p, l) ∨ e ∈ m := by
          clear ih h h1 h2
          induction m with
          | nil => simp_all [insertLine]
          | cons k m ihm =>
            unfold insertLine at he
            split at he
            · simpa using he
            · split at he <;> simp only [List.mem_cons] at he ⊢ <;> tauto
        rcases this with rfl | he
        · show q < p
          omega
        · exact h.1 e he

/-- Every write keeps the canonical form. -/
theorem linesWf_setLine {m : List (Nat × Line)} (p : Nat) (l : Line) (h : linesWf m = true) :
    linesWf (setLine m p l) = true := by
  rw [linesWf_iff] at h ⊢
  refine ⟨?_, ?_⟩
  · unfold setLine
    split
    · exact h.1.filter _
    · exact insertLine_pairwise p l h.1
  · intro e he
    by_cases hl : l = idleLine
    · rw [setLine, if_pos hl] at he
      exact h.2 e (List.mem_filter.mp he).1
    · rcases mem_setLine he with rfl | he
      · exact hl
      · exact h.2 e he

/-- The reset state's pin space has the canonical form. -/
theorem linesWf_reset (c : Config) : linesWf (State.resetWith c).lines = true := by
  simp [linesWf_iff, State.resetWith]

/-- Equal canonical pin spaces read alike on every pin, and only they do. -/
theorem lines_ext {m n : List (Nat × Line)} (hm : linesWf m = true) (hn : linesWf n = true)
    (h : ∀ p, lineAt m p = lineAt n p) : m = n := by
  rw [linesWf_iff] at hm hn
  induction m generalizing n with
  | nil =>
    cases n with
    | nil => rfl
    | cons e n =>
      obtain ⟨q, l⟩ := e
      exact absurd (by simpa using (h q).symm) (hn.2 (q, l) (by simp))
  | cons d m ih =>
    obtain ⟨p, k⟩ := d
    cases n with
    | nil => exact absurd (by simpa using h p) (hm.2 (p, k) (by simp))
    | cons e n =>
      obtain ⟨q, l⟩ := e
      obtain ⟨hm1, hm2⟩ := List.pairwise_cons.mp hm.1
      obtain ⟨hn1, hn2⟩ := List.pairwise_cons.mp hn.1
      have low_m : ∀ r, r < p → lineAt ((p, k) :: m) r = idleLine := fun r hr =>
        lineAt_of_not_listed (by
          intro e he
          rcases List.mem_cons.mp he with rfl | he
          · show p ≠ r
            omega
          · have := hm1 e he
            simp only at this
            omega)
      have low_n : ∀ r, r < q → lineAt ((q, l) :: n) r = idleLine := fun r hr =>
        lineAt_of_not_listed (by
          intro e he
          rcases List.mem_cons.mp he with rfl | he
          · show q ≠ r
            omega
          · have := hn1 e he
            simp only at this
            omega)
      have hpq : p = q := by
        rcases Nat.lt_trichotomy p q with hlt | heq | hgt
        · exact absurd (by simpa [low_n p hlt] using h p) (hm.2 (p, k) (by simp))
        · exact heq
        · exact absurd (by simpa [low_m q hgt] using (h q).symm) (hn.2 (q, l) (by simp))
      subst hpq
      have hkl : k = l := by simpa using h p
      subst hkl
      have hrest : m = n := by
        refine ih ⟨hm2, fun e he => hm.2 e (by simp [he])⟩
          ⟨hn2, fun e he => hn.2 e (by simp [he])⟩ (fun r => ?_)
        by_cases hr : r = p
        · subst hr
          rw [lineAt_of_not_listed (fun e he => Nat.ne_of_gt (hm1 e he)),
            lineAt_of_not_listed (fun e he => Nat.ne_of_gt (hn1 e he))]
        · simpa [hr] using h r
      rw [hrest]

end Sys2Proof.Machine
end

