-- ==== Sys2Proof/Laws/State.lean ====
section
/-!
SUPPORT. One lemma per field per update of the state, true by `rfl`, so that no proof unfolds a record
update.
-/

namespace Sys2Proof.Machine

@[simp] theorem emit_cfg (e : Event) (s : State) : (emit e s).cfg = s.cfg := rfl
@[simp] theorem emit_bind (e : Event) (s : State) : (emit e s).bind = s.bind := rfl
@[simp] theorem emit_lines (e : Event) (s : State) : (emit e s).lines = s.lines := rfl
@[simp] theorem emit_res (e : Event) (s : State) : (emit e s).res = s.res := rfl
@[simp] theorem emit_busy (e : Event) (s : State) : (emit e s).busy = s.busy := rfl
@[simp] theorem emit_err (e : Event) (s : State) : (emit e s).err = s.err := rfl
@[simp] theorem emit_accw (e : Event) (s : State) : (emit e s).accw = s.accw := rfl
@[simp] theorem emit_reg (e : Event) (s : State) : (emit e s).reg = s.reg := rfl
@[simp] theorem emit_cnt (e : Event) (s : State) : (emit e s).cnt = s.cnt := rfl
@[simp] theorem emit_smp (e : Event) (s : State) : (emit e s).smp = s.smp := rfl
@[simp] theorem emit_seqPos (e : Event) (s : State) : (emit e s).seqPos = s.seqPos + 1 := rfl
@[simp] theorem emit_traceRev (e : Event) (s : State) : (emit e s).traceRev = e :: s.traceRev := rfl
@[simp] theorem emit_reasons (e : Event) (s : State) : (emit e s).reasons = s.reasons := rfl
@[simp] theorem emit_host (e : Event) (s : State) : (emit e s).host = s.host := rfl
@[simp] theorem emit_answers (e : Event) (s : State) : (emit e s).answers = s.answers := rfl
@[simp] theorem emit_reads (e : Event) (s : State) : (emit e s).reads = s.reads := rfl
@[simp] theorem emit_draws (e : Event) (s : State) : (emit e s).draws = s.draws := rfl

@[simp] theorem pinMode_cfg (p : Pin) (m : Dir) (s : State) : (pinMode p m s).cfg = s.cfg := rfl
@[simp] theorem pinMode_bind (p : Pin) (m : Dir) (s : State) : (pinMode p m s).bind = s.bind := rfl
@[simp] theorem pinMode_lines (p : Pin) (m : Dir) (s : State) :
    (pinMode p m s).lines = setLine s.lines p.toNat { dir := m, outv := (lineAt s.lines p.toNat).outv } := rfl
@[simp] theorem pinMode_res (p : Pin) (m : Dir) (s : State) : (pinMode p m s).res = s.res := rfl
@[simp] theorem pinMode_busy (p : Pin) (m : Dir) (s : State) : (pinMode p m s).busy = s.busy := rfl
@[simp] theorem pinMode_err (p : Pin) (m : Dir) (s : State) : (pinMode p m s).err = s.err := rfl
@[simp] theorem pinMode_accw (p : Pin) (m : Dir) (s : State) : (pinMode p m s).accw = s.accw := rfl
@[simp] theorem pinMode_reg (p : Pin) (m : Dir) (s : State) : (pinMode p m s).reg = s.reg := rfl
@[simp] theorem pinMode_cnt (p : Pin) (m : Dir) (s : State) : (pinMode p m s).cnt = s.cnt := rfl
@[simp] theorem pinMode_smp (p : Pin) (m : Dir) (s : State) : (pinMode p m s).smp = s.smp := rfl
@[simp] theorem pinMode_seqPos (p : Pin) (m : Dir) (s : State) :
    (pinMode p m s).seqPos = s.seqPos + 1 := rfl
@[simp] theorem pinMode_traceRev (p : Pin) (m : Dir) (s : State) :
    (pinMode p m s).traceRev = .mode p m :: s.traceRev := rfl
@[simp] theorem pinMode_reasons (p : Pin) (m : Dir) (s : State) :
    (pinMode p m s).reasons = s.reasons := rfl
@[simp] theorem pinMode_host (p : Pin) (m : Dir) (s : State) : (pinMode p m s).host = s.host := rfl
@[simp] theorem pinMode_answers (p : Pin) (m : Dir) (s : State) :
    (pinMode p m s).answers = s.answers := rfl
@[simp] theorem pinMode_reads (p : Pin) (m : Dir) (s : State) :
    (pinMode p m s).reads = s.reads := rfl
@[simp] theorem pinMode_draws (p : Pin) (m : Dir) (s : State) :
    (pinMode p m s).draws = s.draws := rfl

@[simp] theorem pinWrite_cfg (p : Pin) (v : Bool) (s : State) : (pinWrite p v s).cfg = s.cfg := rfl
@[simp] theorem pinWrite_bind (p : Pin) (v : Bool) (s : State) :
    (pinWrite p v s).bind = s.bind := rfl
@[simp] theorem pinWrite_lines (p : Pin) (v : Bool) (s : State) :
    (pinWrite p v s).lines = setLine s.lines p.toNat { dir := (lineAt s.lines p.toNat).dir, outv := v } := rfl
@[simp] theorem pinWrite_res (p : Pin) (v : Bool) (s : State) : (pinWrite p v s).res = s.res := rfl
@[simp] theorem pinWrite_busy (p : Pin) (v : Bool) (s : State) :
    (pinWrite p v s).busy = s.busy := rfl
@[simp] theorem pinWrite_err (p : Pin) (v : Bool) (s : State) : (pinWrite p v s).err = s.err := rfl
@[simp] theorem pinWrite_accw (p : Pin) (v : Bool) (s : State) :
    (pinWrite p v s).accw = s.accw := rfl
@[simp] theorem pinWrite_reg (p : Pin) (v : Bool) (s : State) : (pinWrite p v s).reg = s.reg := rfl
@[simp] theorem pinWrite_cnt (p : Pin) (v : Bool) (s : State) : (pinWrite p v s).cnt = s.cnt := rfl
@[simp] theorem pinWrite_smp (p : Pin) (v : Bool) (s : State) : (pinWrite p v s).smp = s.smp := rfl
@[simp] theorem pinWrite_seqPos (p : Pin) (v : Bool) (s : State) :
    (pinWrite p v s).seqPos = s.seqPos + 1 := rfl
@[simp] theorem pinWrite_traceRev (p : Pin) (v : Bool) (s : State) :
    (pinWrite p v s).traceRev = .write p v :: s.traceRev := rfl
@[simp] theorem pinWrite_reasons (p : Pin) (v : Bool) (s : State) :
    (pinWrite p v s).reasons = s.reasons := rfl
@[simp] theorem pinWrite_host (p : Pin) (v : Bool) (s : State) :
    (pinWrite p v s).host = s.host := rfl
@[simp] theorem pinWrite_answers (p : Pin) (v : Bool) (s : State) :
    (pinWrite p v s).answers = s.answers := rfl
@[simp] theorem pinWrite_reads (p : Pin) (v : Bool) (s : State) :
    (pinWrite p v s).reads = s.reads := rfl
@[simp] theorem pinWrite_draws (p : Pin) (v : Bool) (s : State) :
    (pinWrite p v s).draws = s.draws := rfl

@[simp] theorem pinSample_cfg (p : Pin) (s : State) : (pinSample p s).cfg = s.cfg := rfl
@[simp] theorem pinSample_bind (p : Pin) (s : State) : (pinSample p s).bind = s.bind := rfl
@[simp] theorem pinSample_lines (p : Pin) (s : State) : (pinSample p s).lines = s.lines := rfl
@[simp] theorem pinSample_res (p : Pin) (s : State) : (pinSample p s).res = s.res := rfl
@[simp] theorem pinSample_busy (p : Pin) (s : State) : (pinSample p s).busy = s.busy := rfl
@[simp] theorem pinSample_err (p : Pin) (s : State) : (pinSample p s).err = s.err := rfl
@[simp] theorem pinSample_accw (p : Pin) (s : State) : (pinSample p s).accw = s.accw := rfl
@[simp] theorem pinSample_reg (p : Pin) (s : State) : (pinSample p s).reg = s.reg := rfl
@[simp] theorem pinSample_cnt (p : Pin) (s : State) : (pinSample p s).cnt = s.cnt := rfl
@[simp] theorem pinSample_smp (p : Pin) (s : State) : (pinSample p s).smp = nextAnswer s := rfl
@[simp] theorem pinSample_seqPos (p : Pin) (s : State) : (pinSample p s).seqPos = s.seqPos + 1 := rfl
@[simp] theorem pinSample_traceRev (p : Pin) (s : State) :
    (pinSample p s).traceRev = .read p (nextAnswer s) :: s.traceRev := rfl
@[simp] theorem pinSample_reasons (p : Pin) (s : State) : (pinSample p s).reasons = s.reasons := rfl
@[simp] theorem pinSample_host (p : Pin) (s : State) : (pinSample p s).host = s.host := rfl
@[simp] theorem pinSample_answers (p : Pin) (s : State) :
    (pinSample p s).answers = s.answers.tail := rfl
@[simp] theorem pinSample_reads (p : Pin) (s : State) : (pinSample p s).reads = s.reads + 1 := rfl
@[simp] theorem pinSample_draws (p : Pin) (s : State) : (pinSample p s).draws = s.draws := rfl

@[simp] theorem waitFor_cfg (t : Nat) (s : State) : (waitFor t s).cfg = s.cfg := rfl
@[simp] theorem waitFor_bind (t : Nat) (s : State) : (waitFor t s).bind = s.bind := rfl
@[simp] theorem waitFor_lines (t : Nat) (s : State) : (waitFor t s).lines = s.lines := rfl
@[simp] theorem waitFor_res (t : Nat) (s : State) : (waitFor t s).res = s.res := rfl
@[simp] theorem waitFor_busy (t : Nat) (s : State) : (waitFor t s).busy = s.busy := rfl
@[simp] theorem waitFor_err (t : Nat) (s : State) : (waitFor t s).err = s.err := rfl
@[simp] theorem waitFor_accw (t : Nat) (s : State) : (waitFor t s).accw = s.accw := rfl
@[simp] theorem waitFor_reg (t : Nat) (s : State) : (waitFor t s).reg = s.reg := rfl
@[simp] theorem waitFor_cnt (t : Nat) (s : State) : (waitFor t s).cnt = s.cnt := rfl
@[simp] theorem waitFor_smp (t : Nat) (s : State) : (waitFor t s).smp = s.smp := rfl
@[simp] theorem waitFor_seqPos (t : Nat) (s : State) : (waitFor t s).seqPos = s.seqPos + 1 := rfl
@[simp] theorem waitFor_traceRev (t : Nat) (s : State) :
    (waitFor t s).traceRev = .delay t :: s.traceRev := rfl
@[simp] theorem waitFor_reasons (t : Nat) (s : State) : (waitFor t s).reasons = s.reasons := rfl
@[simp] theorem waitFor_host (t : Nat) (s : State) : (waitFor t s).host = s.host := rfl
@[simp] theorem waitFor_answers (t : Nat) (s : State) : (waitFor t s).answers = s.answers := rfl
@[simp] theorem waitFor_reads (t : Nat) (s : State) : (waitFor t s).reads = s.reads := rfl
@[simp] theorem waitFor_draws (t : Nat) (s : State) : (waitFor t s).draws = s.draws := rfl

@[simp] theorem dropWork_cfg (s : State) : (dropWork s).cfg = s.cfg := rfl
@[simp] theorem dropWork_bind (s : State) : (dropWork s).bind = s.bind := rfl
@[simp] theorem dropWork_lines (s : State) : (dropWork s).lines = s.lines := rfl
@[simp] theorem dropWork_res (s : State) : (dropWork s).res = s.res := rfl
@[simp] theorem dropWork_busy (s : State) : (dropWork s).busy = s.busy := rfl
@[simp] theorem dropWork_err (s : State) : (dropWork s).err = s.err := rfl
@[simp] theorem dropWork_accw (s : State) : (dropWork s).accw = Config.freeAccw s.draws := rfl
@[simp] theorem dropWork_reg (s : State) : (dropWork s).reg = Config.freeReg s.draws := rfl
@[simp] theorem dropWork_cnt (s : State) : (dropWork s).cnt = Config.freeCnt s.draws := rfl
@[simp] theorem dropWork_smp (s : State) : (dropWork s).smp = Config.freeSmp s.draws := rfl
@[simp] theorem dropWork_seqPos (s : State) : (dropWork s).seqPos = s.seqPos := rfl
@[simp] theorem dropWork_traceRev (s : State) : (dropWork s).traceRev = s.traceRev := rfl
@[simp] theorem dropWork_reasons (s : State) : (dropWork s).reasons = s.reasons := rfl
@[simp] theorem dropWork_host (s : State) : (dropWork s).host = s.host := rfl
@[simp] theorem dropWork_answers (s : State) : (dropWork s).answers = s.answers := rfl
@[simp] theorem dropWork_reads (s : State) : (dropWork s).reads = s.reads := rfl
@[simp] theorem dropWork_draws (s : State) : (dropWork s).draws = s.draws + 1 := rfl

@[simp] theorem accepted_cfg (s : State) : (accepted s).cfg = s.cfg := rfl
@[simp] theorem accepted_bind (s : State) : (accepted s).bind = s.bind := rfl
@[simp] theorem accepted_lines (s : State) : (accepted s).lines = s.lines := rfl
@[simp] theorem accepted_res (s : State) : (accepted s).res = s.res := rfl
@[simp] theorem accepted_busy (s : State) : (accepted s).busy = true := rfl
@[simp] theorem accepted_err (s : State) : (accepted s).err = s.err := rfl
@[simp] theorem accepted_accw (s : State) : (accepted s).accw = s.accw := rfl
@[simp] theorem accepted_reg (s : State) : (accepted s).reg = s.reg := rfl
@[simp] theorem accepted_cnt (s : State) : (accepted s).cnt = s.cnt := rfl
@[simp] theorem accepted_smp (s : State) : (accepted s).smp = s.smp := rfl
@[simp] theorem accepted_seqPos (s : State) : (accepted s).seqPos = 0 := rfl
@[simp] theorem accepted_traceRev (s : State) : (accepted s).traceRev = s.traceRev := rfl
@[simp] theorem accepted_reasons (s : State) : (accepted s).reasons = s.reasons := rfl
@[simp] theorem accepted_host (s : State) : (accepted s).host = s.host := rfl
@[simp] theorem accepted_answers (s : State) : (accepted s).answers = s.answers := rfl
@[simp] theorem accepted_reads (s : State) : (accepted s).reads = s.reads := rfl
@[simp] theorem accepted_draws (s : State) : (accepted s).draws = s.draws := rfl

@[simp] theorem completed_cfg (s : State) : (completed s).cfg = s.cfg := rfl
@[simp] theorem completed_bind (s : State) : (completed s).bind = s.bind := rfl
@[simp] theorem completed_lines (s : State) : (completed s).lines = s.lines := rfl
@[simp] theorem completed_res (s : State) : (completed s).res = s.res := rfl
@[simp] theorem completed_busy (s : State) : (completed s).busy = false := rfl
@[simp] theorem completed_err (s : State) : (completed s).err = s.err := rfl
@[simp] theorem completed_accw (s : State) : (completed s).accw = s.accw := rfl
@[simp] theorem completed_reg (s : State) : (completed s).reg = s.reg := rfl
@[simp] theorem completed_cnt (s : State) : (completed s).cnt = s.cnt := rfl
@[simp] theorem completed_smp (s : State) : (completed s).smp = s.smp := rfl
@[simp] theorem completed_seqPos (s : State) : (completed s).seqPos = 0 := rfl
@[simp] theorem completed_traceRev (s : State) : (completed s).traceRev = s.traceRev := rfl
@[simp] theorem completed_reasons (s : State) : (completed s).reasons = s.reasons := rfl
@[simp] theorem completed_host (s : State) : (completed s).host = s.host := rfl
@[simp] theorem completed_answers (s : State) : (completed s).answers = s.answers := rfl
@[simp] theorem completed_reads (s : State) : (completed s).reads = s.reads := rfl
@[simp] theorem completed_draws (s : State) : (completed s).draws = s.draws := rfl

@[simp] theorem setRes_cfg (v : Word) (s : State) : (setRes v s).cfg = s.cfg := rfl
@[simp] theorem setRes_bind (v : Word) (s : State) : (setRes v s).bind = s.bind := rfl
@[simp] theorem setRes_lines (v : Word) (s : State) : (setRes v s).lines = s.lines := rfl
@[simp] theorem setRes_res (v : Word) (s : State) : (setRes v s).res = v := rfl
@[simp] theorem setRes_busy (v : Word) (s : State) : (setRes v s).busy = s.busy := rfl
@[simp] theorem setRes_err (v : Word) (s : State) : (setRes v s).err = s.err := rfl
@[simp] theorem setRes_accw (v : Word) (s : State) : (setRes v s).accw = s.accw := rfl
@[simp] theorem setRes_reg (v : Word) (s : State) : (setRes v s).reg = s.reg := rfl
@[simp] theorem setRes_cnt (v : Word) (s : State) : (setRes v s).cnt = s.cnt := rfl
@[simp] theorem setRes_smp (v : Word) (s : State) : (setRes v s).smp = s.smp := rfl
@[simp] theorem setRes_seqPos (v : Word) (s : State) : (setRes v s).seqPos = s.seqPos := rfl
@[simp] theorem setRes_traceRev (v : Word) (s : State) : (setRes v s).traceRev = s.traceRev := rfl
@[simp] theorem setRes_reasons (v : Word) (s : State) : (setRes v s).reasons = s.reasons := rfl
@[simp] theorem setRes_host (v : Word) (s : State) : (setRes v s).host = s.host := rfl
@[simp] theorem setRes_answers (v : Word) (s : State) : (setRes v s).answers = s.answers := rfl
@[simp] theorem setRes_reads (v : Word) (s : State) : (setRes v s).reads = s.reads := rfl
@[simp] theorem setRes_draws (v : Word) (s : State) : (setRes v s).draws = s.draws := rfl

@[simp] theorem refuse_cfg (r : RefuseReason) (s : State) : (refuse r s).cfg = s.cfg := rfl
@[simp] theorem refuse_bind (r : RefuseReason) (s : State) : (refuse r s).bind = s.bind := rfl
@[simp] theorem refuse_lines (r : RefuseReason) (s : State) : (refuse r s).lines = s.lines := rfl
@[simp] theorem refuse_res (r : RefuseReason) (s : State) : (refuse r s).res = s.res := rfl
@[simp] theorem refuse_busy (r : RefuseReason) (s : State) : (refuse r s).busy = false := rfl
@[simp] theorem refuse_err (r : RefuseReason) (s : State) : (refuse r s).err = true := rfl
@[simp] theorem refuse_accw (r : RefuseReason) (s : State) : (refuse r s).accw = s.accw := rfl
@[simp] theorem refuse_reg (r : RefuseReason) (s : State) : (refuse r s).reg = s.reg := rfl
@[simp] theorem refuse_cnt (r : RefuseReason) (s : State) : (refuse r s).cnt = s.cnt := rfl
@[simp] theorem refuse_smp (r : RefuseReason) (s : State) : (refuse r s).smp = s.smp := rfl
@[simp] theorem refuse_seqPos (r : RefuseReason) (s : State) : (refuse r s).seqPos = 0 := rfl
@[simp] theorem refuse_traceRev (r : RefuseReason) (s : State) :
    (refuse r s).traceRev = s.traceRev := rfl
@[simp] theorem refuse_reasons (r : RefuseReason) (s : State) :
    (refuse r s).reasons = s.reasons ++ [r] := rfl
@[simp] theorem refuse_host (r : RefuseReason) (s : State) : (refuse r s).host = s.host := rfl
@[simp] theorem refuse_answers (r : RefuseReason) (s : State) :
    (refuse r s).answers = s.answers := rfl
@[simp] theorem refuse_reads (r : RefuseReason) (s : State) : (refuse r s).reads = s.reads := rfl
@[simp] theorem refuse_draws (r : RefuseReason) (s : State) : (refuse r s).draws = s.draws := rfl

@[simp] theorem blockReset_cfg (s : State) : (blockReset s).cfg = s.cfg := rfl
@[simp] theorem blockReset_bind (s : State) :
    (blockReset s).bind = ⟨pinNone, pinNone, pinNone, pinNone⟩ := rfl
@[simp] theorem blockReset_lines (s : State) : (blockReset s).lines = [] := rfl
@[simp] theorem blockReset_res (s : State) : (blockReset s).res = 0#32 := rfl
@[simp] theorem blockReset_busy (s : State) : (blockReset s).busy = false := rfl
@[simp] theorem blockReset_err (s : State) : (blockReset s).err = false := rfl
@[simp] theorem blockReset_accw (s : State) : (blockReset s).accw = 0#32 := rfl
@[simp] theorem blockReset_reg (s : State) : (blockReset s).reg = 0#32 := rfl
@[simp] theorem blockReset_cnt (s : State) : (blockReset s).cnt = 0#11 := rfl
@[simp] theorem blockReset_smp (s : State) : (blockReset s).smp = false := rfl
@[simp] theorem blockReset_seqPos (s : State) : (blockReset s).seqPos = 0 := rfl
@[simp] theorem blockReset_traceRev (s : State) : (blockReset s).traceRev = [] := rfl
@[simp] theorem blockReset_reasons (s : State) : (blockReset s).reasons = [] := rfl
@[simp] theorem blockReset_host (s : State) : (blockReset s).host = s.host := rfl
@[simp] theorem blockReset_answers (s : State) : (blockReset s).answers = s.answers := rfl
@[simp] theorem blockReset_reads (s : State) : (blockReset s).reads = s.reads := rfl
@[simp] theorem blockReset_draws (s : State) : (blockReset s).draws = s.draws := rfl

@[simp] theorem withFetchWord_cfg (s : State) (nbits w : Nat) :
    (s.withFetchWord nbits w).cfg = s.cfg := rfl
@[simp] theorem withFetchWord_bind (s : State) (nbits w : Nat) :
    (s.withFetchWord nbits w).bind = s.bind := rfl
@[simp] theorem withFetchWord_lines (s : State) (nbits w : Nat) :
    (s.withFetchWord nbits w).lines = s.lines := rfl
@[simp] theorem withFetchWord_res (s : State) (nbits w : Nat) :
    (s.withFetchWord nbits w).res = s.res := rfl
@[simp] theorem withFetchWord_busy (s : State) (nbits w : Nat) :
    (s.withFetchWord nbits w).busy = false := rfl
@[simp] theorem withFetchWord_err (s : State) (nbits w : Nat) :
    (s.withFetchWord nbits w).err = s.err := rfl
@[simp] theorem withFetchWord_accw (s : State) (nbits w : Nat) :
    (s.withFetchWord nbits w).accw = s.accw := rfl
@[simp] theorem withFetchWord_reg (s : State) (nbits w : Nat) :
    (s.withFetchWord nbits w).reg = s.reg := rfl
@[simp] theorem withFetchWord_cnt (s : State) (nbits w : Nat) :
    (s.withFetchWord nbits w).cnt = s.cnt := rfl
@[simp] theorem withFetchWord_smp (s : State) (nbits w : Nat) :
    (s.withFetchWord nbits w).smp = s.smp := rfl
@[simp] theorem withFetchWord_seqPos (s : State) (nbits w : Nat) :
    (s.withFetchWord nbits w).seqPos = s.seqPos := rfl
@[simp] theorem withFetchWord_traceRev (s : State) (nbits w : Nat) :
    (s.withFetchWord nbits w).traceRev = s.traceRev := rfl
@[simp] theorem withFetchWord_reasons (s : State) (nbits w : Nat) :
    (s.withFetchWord nbits w).reasons = s.reasons := rfl
@[simp] theorem withFetchWord_host (s : State) (nbits w : Nat) :
    (s.withFetchWord nbits w).host = .command (commandOfBits nbits w) :: s.host := rfl
@[simp] theorem withFetchWord_answers (s : State) (nbits w : Nat) :
    (s.withFetchWord nbits w).answers = s.answers := rfl
@[simp] theorem withFetchWord_reads (s : State) (nbits w : Nat) :
    (s.withFetchWord nbits w).reads = s.reads := rfl
@[simp] theorem withFetchWord_draws (s : State) (nbits w : Nat) :
    (s.withFetchWord nbits w).draws = s.draws := rfl

end Sys2Proof.Machine
end

