-- ==== Sys2Proof/Laws/Cycles.lean ====
section
/-!
SUPPORT. What the line primitives and the cycle can do, said once each: the trace they append, the answers
they use up, the lines they leave, and what they do not touch.
-/

namespace Sys2Proof.Machine

/-! ### The trace -/

@[simp] theorem emit_trace (e : Event) (s : State) : (emit e s).trace = s.trace ++ [e] := by
  simp [State.trace]

@[simp] theorem pinMode_trace (p : Pin) (m : Dir) (s : State) :
    (pinMode p m s).trace = s.trace ++ [.mode p m] := by
  simp [State.trace]

@[simp] theorem pinWrite_trace (p : Pin) (v : Bool) (s : State) :
    (pinWrite p v s).trace = s.trace ++ [.write p v] := by
  simp [State.trace]

@[simp] theorem pinSample_trace (p : Pin) (s : State) :
    (pinSample p s).trace = s.trace ++ [.read p (nextAnswer s)] := by
  simp [State.trace]

@[simp] theorem waitFor_trace (t : Nat) (s : State) :
    (waitFor t s).trace = s.trace ++ [.delay t] := by
  simp [State.trace]

@[simp] theorem dropWork_trace (s : State) : (dropWork s).trace = s.trace := rfl

@[simp] theorem accepted_trace (s : State) : (accepted s).trace = s.trace := rfl

@[simp] theorem completed_trace (s : State) : (completed s).trace = s.trace := rfl

@[simp] theorem setRes_trace (v : Word) (s : State) : (setRes v s).trace = s.trace := rfl

@[simp] theorem refuse_trace (r : RefuseReason) (s : State) : (refuse r s).trace = s.trace := rfl

/-- A refusal is exactly what `refusedState` says. -/
theorem refuse_eq (r : RefuseReason) (s : State) : refuse r s = refusedState r s := rfl

/-! ### The lines -/

theorem dirAt_pinMode (p q : Pin) (m : Dir) (s : State) :
    dirAt (pinMode p m s) q = if q = p then m else dirAt s q := by
  simp only [dirAt, pinMode_lines, lineAt_setLine, ← BitVec.toNat_inj]
  split <;> rfl

theorem outvAt_pinMode (p q : Pin) (m : Dir) (s : State) :
    outvAt (pinMode p m s) q = outvAt s q := by
  simp only [outvAt, pinMode_lines, lineAt_setLine]
  split
  · next h => rw [h]
  · rfl

theorem dirAt_pinWrite (p q : Pin) (v : Bool) (s : State) :
    dirAt (pinWrite p v s) q = dirAt s q := by
  simp only [dirAt, pinWrite_lines, lineAt_setLine]
  split
  · next h => rw [h]
  · rfl

theorem outvAt_pinWrite (p q : Pin) (v : Bool) (s : State) :
    outvAt (pinWrite p v s) q = if q = p then v else outvAt s q := by
  simp only [outvAt, pinWrite_lines, lineAt_setLine, ← BitVec.toNat_inj]
  split <;> rfl

@[simp] theorem dirAt_pinSample (p q : Pin) (s : State) : dirAt (pinSample p s) q = dirAt s q := rfl

@[simp] theorem outvAt_pinSample (p q : Pin) (s : State) :
    outvAt (pinSample p s) q = outvAt s q := rfl

@[simp] theorem dirAt_waitFor (t : Nat) (q : Pin) (s : State) : dirAt (waitFor t s) q = dirAt s q := rfl

@[simp] theorem outvAt_waitFor (t : Nat) (q : Pin) (s : State) :
    outvAt (waitFor t s) q = outvAt s q := rfl

/-! ### The answers -/

@[simp] theorem nextAnswer_eq (s : State) : nextAnswer s = answerAt s 0 := by
  unfold nextAnswer answerAt
  cases s.answers <;> rfl

/-- Using up one answer moves the answers on by one. -/
theorem answerAt_of_used {s t : State} (ha : t.answers = s.answers.tail) (hr : t.reads = s.reads + 1)
    (k : Nat) : answerAt t k = answerAt s (k + 1) := by
  simp only [answerAt, ha, hr, List.getElem?_tail]
  congr 2
  omega

/-- Using up `n` answers moves the answers on by `n`. -/
theorem answerAt_of_dropped {s t : State} {n : Nat} (ha : t.answers = s.answers.drop n)
    (hr : t.reads = s.reads + n) (k : Nat) : answerAt t k = answerAt s (n + k) := by
  simp only [answerAt, ha, hr, List.getElem?_drop]
  congr 2
  omega

@[simp] theorem answersFrom_length (s : State) (k n : Nat) : (answersFrom s k n).length = n := by
  simp [answersFrom]

theorem answersFrom_succ (s : State) (k n : Nat) :
    answersFrom s k (n + 1) = answerAt s k :: answersFrom s (k + 1) n := by
  simp only [answersFrom, List.range_succ_eq_map, List.map_cons, List.map_map, Nat.add_zero]
  congr 1
  apply List.map_congr_left
  intro i _
  simp only [Function.comp_apply]
  congr 1
  omega

theorem answersFrom_add (s : State) (k m n : Nat) :
    answersFrom s k (m + n) = answersFrom s k m ++ answersFrom s (k + m) n := by
  simp only [answersFrom, List.range_add, List.map_append, List.map_map, Function.comp_def]
  simp only [Nat.add_assoc]

theorem answersFrom_of_dropped {s t : State} {n : Nat} (ha : t.answers = s.answers.drop n)
    (hr : t.reads = s.reads + n) (k m : Nat) : answersFrom t k m = answersFrom s (n + k) m := by
  simp only [answersFrom, answerAt_of_dropped ha hr, Nat.add_assoc]

/-! ### The cycle -/

/-- A cycle touches the lines, the trace, the sequencer position, `SMP` and the environment only. -/
theorem cycle_frame (p : Pins) (tms tdi : Bool) (s : State) :
    cycle p tms tdi s =
      { s with
        lines := (cycle p tms tdi s).lines
        traceRev := (cycle p tms tdi s).traceRev
        seqPos := (cycle p tms tdi s).seqPos
        smp := answerAt s 0
        answers := s.answers.tail
        reads := s.reads + 1 } := by
  obtain ⟨ck, ms, dO, di⟩ := p
  cases di <;> simp [cycle, onTdi, pinWrite, pinSample, waitFor, emit, answerAt]

theorem cycle_trace (p : Pins) (tms tdi : Bool) (s : State) :
    (cycle p tms tdi s).trace = s.trace ++ cycleEvents s.cfg p tms tdi (answerAt s 0) := by
  obtain ⟨ck, ms, dO, di⟩ := p
  cases di <;> simp [cycle, onTdi, cycleEvents, tdiWrite, answerAt]

@[simp] theorem cycle_cfg (p : Pins) (tms tdi : Bool) (s : State) :
    (cycle p tms tdi s).cfg = s.cfg := by rw [cycle_frame]

@[simp] theorem cycle_smp (p : Pins) (tms tdi : Bool) (s : State) :
    (cycle p tms tdi s).smp = answerAt s 0 := by rw [cycle_frame]

@[simp] theorem cycle_answers (p : Pins) (tms tdi : Bool) (s : State) :
    (cycle p tms tdi s).answers = s.answers.tail := by rw [cycle_frame]

@[simp] theorem cycle_reads (p : Pins) (tms tdi : Bool) (s : State) :
    (cycle p tms tdi s).reads = s.reads + 1 := by rw [cycle_frame]

@[simp] theorem cycle_accw (p : Pins) (tms tdi : Bool) (s : State) :
    (cycle p tms tdi s).accw = s.accw := by rw [cycle_frame]

@[simp] theorem cycle_reg (p : Pins) (tms tdi : Bool) (s : State) :
    (cycle p tms tdi s).reg = s.reg := by rw [cycle_frame]

theorem answerAt_cycle (p : Pins) (tms tdi : Bool) (s : State) (k : Nat) :
    answerAt (cycle p tms tdi s) k = answerAt s (k + 1) :=
  answerAt_of_used (by simp) (by simp) k

/-- The pins of a successful `LineCheck` are pairwise distinct. -/
structure PinsDistinct (p : Pins) : Prop where
  ck_ms : p.ck ≠ p.ms
  ck_dO : p.ck ≠ p.dO
  ms_dO : p.ms ≠ p.dO
  di_ck : ∀ di, p.di = some di → di ≠ p.ck
  di_ms : ∀ di, p.di = some di → di ≠ p.ms
  di_dO : ∀ di, p.di = some di → di ≠ p.dO

theorem dirAt_cycle (p : Pins) (tms tdi : Bool) (s : State) (q : Pin) :
    dirAt (cycle p tms tdi s) q = dirAt s q := by
  obtain ⟨ck, ms, dO, di⟩ := p
  cases di <;> simp [cycle, onTdi, dirAt_pinWrite]

/-- The latches after a cycle, every pin. -/
theorem outvAt_cycle (p : Pins) (tms tdi : Bool) (s : State) (q : Pin) :
    outvAt (cycle p tms tdi s) q =
      if q = p.ck then false
      else if p.di = some q then tdi
      else if q = p.ms then tms
      else outvAt s q := by
  obtain ⟨ck, ms, dO, di⟩ := p
  cases di <;> simp [cycle, onTdi, outvAt_pinWrite]
  · by_cases h : q = ck <;> simp [h]
  · next d =>
    by_cases h1 : q = ck <;> by_cases h2 : q = d <;> simp_all
    exact fun h => absurd h.symm h2

theorem mem_pinList (p : Pins) (q : Pin) :
    q ∈ pinList p ↔ q = p.ck ∨ q = p.ms ∨ q = p.dO ∨ p.di = some q := by
  obtain ⟨ck, ms, dO, di⟩ := p
  cases di <;> simp [pinList, eq_comm]

/-- The lines after one cycle. -/
theorem cycle_lines {p : Pins} (hp : PinsDistinct p) (tms tdi : Bool) (s : State) :
    CycleLines p tms tdi s (cycle p tms tdi s) := by
  refine ⟨dirAt_cycle p tms tdi s, ?_, ?_, ?_, ?_, ?_⟩
  · simp [outvAt_cycle]
  · have h : p.di ≠ some p.ms := fun h => hp.di_ms _ h rfl
    simp [outvAt_cycle, hp.ck_ms.symm, h]
  · have h : p.di ≠ some p.dO := fun h => hp.di_dO _ h rfl
    simp [outvAt_cycle, hp.ck_dO.symm, hp.ms_dO.symm, h]
  · intro di hdi
    simp [outvAt_cycle, hp.di_ck di hdi, hdi]
  · intro q hq
    rw [mem_pinList] at hq
    push Not at hq
    simp [dirAt_cycle, outvAt_cycle, hq]

/-! ### Runs of cycles -/

@[simp] theorem runCycles_nil (p : Pins) (s : State) : runCycles p [] s = s := rfl

@[simp] theorem runCycles_cons (p : Pins) (c : Bool × Bool) (cs : List (Bool × Bool)) (s : State) :
    runCycles p (c :: cs) s = runCycles p cs (cycle p c.1 c.2 s) := rfl

theorem runCycles_append (p : Pins) (cs ds : List (Bool × Bool)) (s : State) :
    runCycles p (cs ++ ds) s = runCycles p ds (runCycles p cs s) := by
  simp [runCycles, List.foldl_append]

/-- A run of cycles touches the lines, the trace, the sequencer position, `SMP` and the environment
only, and uses up one answer a cycle. -/
theorem runCycles_frame (p : Pins) (cs : List (Bool × Bool)) (s : State) :
    runCycles p cs s =
      { s with
        lines := (runCycles p cs s).lines
        traceRev := (runCycles p cs s).traceRev
        seqPos := (runCycles p cs s).seqPos
        smp := (runCycles p cs s).smp
        answers := s.answers.drop cs.length
        reads := s.reads + cs.length } := by
  induction cs generalizing s with
  | nil => simp
  | cons c cs ih =>
    rw [runCycles_cons, ih (cycle p c.1 c.2 s)]
    rw [cycle_frame p c.1 c.2 s]
    simp [List.drop_tail, Nat.add_comm, Nat.add_left_comm]

@[simp] theorem runCycles_cfg (p : Pins) (cs : List (Bool × Bool)) (s : State) :
    (runCycles p cs s).cfg = s.cfg := by rw [runCycles_frame]

@[simp] theorem runCycles_answers (p : Pins) (cs : List (Bool × Bool)) (s : State) :
    (runCycles p cs s).answers = s.answers.drop cs.length := by rw [runCycles_frame]

@[simp] theorem runCycles_reads (p : Pins) (cs : List (Bool × Bool)) (s : State) :
    (runCycles p cs s).reads = s.reads + cs.length := by rw [runCycles_frame]

theorem answerAt_runCycles (p : Pins) (cs : List (Bool × Bool)) (s : State) (k : Nat) :
    answerAt (runCycles p cs s) k = answerAt s (cs.length + k) :=
  answerAt_of_dropped (by simp) (by simp) k

theorem answersFrom_runCycles (p : Pins) (cs : List (Bool × Bool)) (s : State) (k m : Nat) :
    answersFrom (runCycles p cs s) k m = answersFrom s (cs.length + k) m :=
  answersFrom_of_dropped (by simp) (by simp) k m

@[simp] theorem cyclesEvents_nil (c : Config) (p : Pins) (bs : List Bool) :
    cyclesEvents c p [] bs = [] := rfl

@[simp] theorem cyclesEvents_cons (c : Config) (p : Pins) (d : Bool × Bool) (cs : List (Bool × Bool))
    (b : Bool) (bs : List Bool) :
    cyclesEvents c p (d :: cs) (b :: bs) = cycleEvents c p d.1 d.2 b ++ cyclesEvents c p cs bs := by
  simp [cyclesEvents]

theorem cyclesEvents_append (c : Config) (p : Pins) {cs ds : List (Bool × Bool)} {as bs : List Bool}
    (h : cs.length = as.length) :
    cyclesEvents c p (cs ++ ds) (as ++ bs) = cyclesEvents c p cs as ++ cyclesEvents c p ds bs := by
  simp [cyclesEvents, List.zip_append h]

/-- The trace of a run of cycles. -/
theorem runCycles_trace (p : Pins) (cs : List (Bool × Bool)) (s : State) :
    (runCycles p cs s).trace = s.trace ++ cyclesEvents s.cfg p cs (answersFrom s 0 cs.length) := by
  induction cs generalizing s with
  | nil => simp
  | cons c cs ih =>
    rw [runCycles_cons, ih, cycle_trace, List.length_cons, answersFrom_succ, cyclesEvents_cons]
    have h : answersFrom (cycle p c.1 c.2 s) 0 cs.length = answersFrom s (0 + 1) cs.length := by
      simp only [answersFrom, answerAt_cycle]
      apply List.map_congr_left
      intro i _
      congr 1
      omega
    rw [h]
    simp

/-- The lines after a run of at least one cycle. -/
theorem runCycles_lines {p : Pins} (hp : PinsDistinct p) (cs : List (Bool × Bool)) (c : Bool × Bool)
    (s : State) : CycleLines p c.1 c.2 s (runCycles p (cs ++ [c]) s) := by
  rw [runCycles_append]
  show CycleLines p c.1 c.2 s (cycle p c.1 c.2 (runCycles p cs s))
  obtain ⟨h1, h2, h3, h4, h5, h6⟩ := cycle_lines hp c.1 c.2 (runCycles p cs s)
  have same : ∀ q, q ≠ p.ck → q ≠ p.ms → p.di ≠ some q →
      outvAt (runCycles p cs s) q = outvAt s q := by
    clear * -
    intro q hck hms hdi
    induction cs generalizing s with
    | nil => rfl
    | cons d ds ih => rw [runCycles_cons, ih, outvAt_cycle, if_neg hck, if_neg hdi, if_neg hms]
  have dirs : ∀ q, dirAt (runCycles p cs s) q = dirAt s q := by
    clear * -
    intro q
    induction cs generalizing s with
    | nil => rfl
    | cons d ds ih => rw [runCycles_cons, ih, dirAt_cycle]
  refine ⟨fun q => (h1 q).trans (dirs q), h2, h3, ?_, h5, ?_⟩
  · exact h4.trans (same p.dO hp.ck_dO.symm hp.ms_dO.symm (fun h => hp.di_dO _ h rfl))
  · intro q hq
    refine ⟨(h6 q hq).1.trans (dirs q), (h6 q hq).2.trans ?_⟩
    rw [mem_pinList] at hq
    push Not at hq
    exact same q hq.1 hq.2.1 hq.2.2.2

end Sys2Proof.Machine
end

