-- ==== Sys2Proof/Laws/Commands.lean ====
section
/-!
SUPPORT. What the shared operations of the commands can do, said once each: `LineCheck`, the frame of a
line-touching command, the bodies of `CFG`, `REL`, `RST` and `SHIFT`, the stream of `BYP`, and one step.
-/

namespace Sys2Proof.Machine

/-! ### LineCheck and the frame of a line-touching command -/

/-- The pins `LineCheck` names when it succeeds. -/
def pinsOf (b : Bindings) : Pins :=
  { ck := b.tck, ms := b.tms, dO := b.tdo, di := if b.tdi = pinNone then none else some b.tdi }

theorem boundPins_nodup {b : Bindings} (h1 : b.tck ≠ pinNone) (h2 : b.tms ≠ pinNone)
    (h3 : b.tdo ≠ pinNone) :
    (boundPins b).Nodup ↔ b.tck ≠ b.tms ∧ b.tck ≠ b.tdo ∧ b.tms ≠ b.tdo ∧
      (b.tdi = pinNone ∨ (b.tdi ≠ b.tck ∧ b.tdi ≠ b.tms ∧ b.tdi ≠ b.tdo)) := by
  by_cases h : b.tdi = pinNone
  · simp [boundPins, h1, h2, h3, h]
    tauto
  · simp [boundPins, h1, h2, h3, h, eq_comm (a := b.tdi)]
    tauto

/-- `LineCheck` succeeds exactly when TCK, TMS and TDO are bound and all bound pins differ. -/
theorem lineCheck_ok_iff (b : Bindings) (p : Pins) :
    lineCheck b = .ok p ↔
      b.tck ≠ pinNone ∧ b.tms ≠ pinNone ∧ b.tdo ≠ pinNone
        ∧ (b.tck ≠ b.tms ∧ b.tck ≠ b.tdo ∧ b.tms ≠ b.tdo ∧
          (b.tdi = pinNone ∨ (b.tdi ≠ b.tck ∧ b.tdi ≠ b.tms ∧ b.tdi ≠ b.tdo)))
        ∧ p = pinsOf b := by
  unfold lineCheck
  split
  · next h => simp; tauto
  · next h =>
    push Not at h
    rw [← boundPins_nodup h.1 h.2.1 h.2.2]
    split
    · next hn => simp [hn]
    · next hn =>
      have hd : (boundPins b).Nodup := by simpa using hn
      simp only [Except.ok.injEq, h, hd, true_and, ne_eq, not_false_eq_true, pinsOf]
      exact eq_comm

theorem lineCheck_distinct {b : Bindings} {p : Pins} (h : lineCheck b = .ok p) : PinsDistinct p := by
  obtain ⟨-, -, -, ⟨h1, h2, h3, h4⟩, rfl⟩ := (lineCheck_ok_iff b p).mp h
  refine ⟨h1, h2, h3, ?_, ?_, ?_⟩ <;>
  · intro di hdi
    simp only [pinsOf] at hdi ⊢
    split at hdi
    · cases hdi
    · next hn =>
      cases hdi
      tauto

/-- The pins of a successful `LineCheck` are bindings. -/
theorem lineCheck_bound {b : Bindings} {p : Pins} (h : lineCheck b = .ok p) {q : Pin}
    (hq : q ∈ pinList p) : q = b.tck ∨ q = b.tms ∨ q = b.tdo ∨ q = b.tdi := by
  obtain ⟨-, -, -, -, rfl⟩ := (lineCheck_ok_iff b p).mp h
  rw [mem_pinList] at hq
  simp only [pinsOf] at hq
  split at hq
  · simp only [reduceCtorEq, or_false] at hq
    tauto
  · rcases hq with h | h | h | h
    · exact .inl h
    · exact .inr (.inl h)
    · exact .inr (.inr (.inl h))
    · exact .inr (.inr (.inr (Option.some.inj h).symm))

theorem missingPin_none_iff (c : Config) (p : Pins) :
    missingPin c p = none ↔ ∀ q ∈ pinList p, isEligible c q = true := by
  simp [missingPin]

/-- A line-touching command whose lines are ready runs its body. -/
theorem lineCommand_ready {s : State} {p : Pins} (h : LinesReady s p) (body : Pins → State → State) :
    lineCommand body s = .next (completed (body p (accepted s))) := by
  simp [lineCommand, h.1, h.2]

/-- A line-touching command that fails `LineCheck` is refused. -/
theorem lineCommand_refused {s : State} {r : RefuseReason} (h : lineCheck s.bind = .error r)
    (body : Pins → State → State) : lineCommand body s = .next (refusedState r s) := by
  simp [lineCommand, h, refuse_eq]

/-- All that a line-touching command can do when it answers a next state. -/
theorem lineCommand_cases {body : Pins → State → State} {s t : State}
    (h : lineCommand body s = .next t) :
    (∃ r, lineCheck s.bind = .error r ∧ t = refusedState r s) ∨
      (∃ p, LinesReady s p ∧ t = completed (body p (accepted s))) := by
  unfold lineCommand at h
  split at h
  · next r hr => exact .inl ⟨r, hr, by cases h; rfl⟩
  · next p hp =>
    split at h
    · cases h
    · next hm => exact .inr ⟨p, ⟨hp, hm⟩, by cases h; rfl⟩

/-! ### The bodies of CFG and REL -/

theorem cfgBody_frame (p : Pins) (s : State) :
    cfgBody p s =
      { s with
        lines := (cfgBody p s).lines
        traceRev := (cfgBody p s).traceRev
        seqPos := (cfgBody p s).seqPos } := by
  obtain ⟨ck, ms, dO, di⟩ := p
  cases di <;> simp [cfgBody, onTdi, pinWrite, pinMode, emit]

theorem cfgBody_trace (p : Pins) (s : State) : (cfgBody p s).trace = s.trace ++ cfgEvents p := by
  obtain ⟨ck, ms, dO, di⟩ := p
  cases di <;> simp [cfgBody, onTdi, cfgEvents]

@[simp] theorem cfgBody_cfg (p : Pins) (s : State) : (cfgBody p s).cfg = s.cfg := by
  rw [cfgBody_frame]

theorem answerAt_cfgBody (p : Pins) (s : State) (k : Nat) :
    answerAt (cfgBody p s) k = answerAt s k := by
  rw [cfgBody_frame]
  rfl

/-- The directions after the body of `CFG`, every pin. -/
theorem dirAt_cfgBody (p : Pins) (s : State) (q : Pin) :
    dirAt (cfgBody p s) q =
      if p.di = some q then .out
      else if q = p.dO then .inpu
      else if q = p.ms then .out
      else if q = p.ck then .out
      else dirAt s q := by
  obtain ⟨ck, ms, dO, di⟩ := p
  cases di <;> simp [cfgBody, onTdi, dirAt_pinWrite, dirAt_pinMode]
  next d => by_cases h : q = d <;> simp [h, eq_comm]

/-- The latches after the body of `CFG`, every pin. -/
theorem outvAt_cfgBody (p : Pins) (s : State) (q : Pin) :
    outvAt (cfgBody p s) q =
      if p.di = some q ∨ q = p.ms ∨ q = p.ck then false else outvAt s q := by
  obtain ⟨ck, ms, dO, di⟩ := p
  cases di <;> simp [cfgBody, onTdi, outvAt_pinWrite, outvAt_pinMode]
  · by_cases h1 : q = ck <;> by_cases h2 : q = ms <;> simp [h1, h2]
  · next d =>
    by_cases h1 : q = ck <;> by_cases h2 : q = ms <;> by_cases h3 : q = d <;>
      simp [h1, h2, h3, eq_comm]

theorem relBody_frame (p : Pins) (s : State) :
    relBody p s =
      { s with
        lines := (relBody p s).lines
        traceRev := (relBody p s).traceRev
        seqPos := (relBody p s).seqPos } := by
  obtain ⟨ck, ms, dO, di⟩ := p
  cases di <;> simp [relBody, onTdi, pinMode, emit]

theorem relBody_trace (p : Pins) (s : State) : (relBody p s).trace = s.trace ++ relEvents p := by
  obtain ⟨ck, ms, dO, di⟩ := p
  cases di <;> simp [relBody, onTdi, relEvents]

/-- The directions after the body of `REL`, every pin. -/
theorem dirAt_relBody (p : Pins) (s : State) (q : Pin) :
    dirAt (relBody p s) q = if q ∈ pinList p then .inp else dirAt s q := by
  obtain ⟨ck, ms, dO, di⟩ := p
  cases di <;> simp [relBody, onTdi, dirAt_pinMode, pinList]
  · by_cases h1 : q = ck <;> by_cases h2 : q = ms <;> by_cases h3 : q = dO <;> simp [h1, h2, h3]
  · next d =>
    by_cases h1 : q = ck <;> by_cases h2 : q = ms <;> by_cases h3 : q = dO <;>
      by_cases h4 : q = d <;> simp [h1, h2, h3, h4]

theorem outvAt_relBody (p : Pins) (s : State) (q : Pin) :
    outvAt (relBody p s) q = outvAt s q := by
  obtain ⟨ck, ms, dO, di⟩ := p
  cases di <;> simp [relBody, onTdi, outvAt_pinMode]

/-! ### The loop of SHIFT -/

/-- The bits of a word after a bit insertion. -/
theorem getLsbD_insertBit (v : Word) (i : Nat) (b : Bool) (j : Nat) :
    (insertBit v i b).getLsbD j = if j = i ∧ i < 32 then b else v.getLsbD j := by
  unfold insertBit zextBit
  by_cases hj : j < 32
  · by_cases hij : j = i
    · subst hij
      cases b <;> simp [hj]
    · cases b
      · simp [hj, hij]
        intro _
        omega
      · simp [hj, hij]
        have h1 : ∀ _ : ¬ j < i, j - i ≠ 0 := by omega
        by_cases hlt : j < i
        · simp [hlt]
        · have : j - i ≠ 0 := h1 hlt
          simp [hlt, this]
  · have h : 32 ≤ j := by omega
    rw [BitVec.getLsbD_of_ge _ _ h]
    split
    · omega
    · rw [BitVec.getLsbD_of_ge _ _ h]

@[simp] theorem wordCycles_length (t d : Word) (w : Nat) : (wordCycles t d w).length = w := by
  simp [wordCycles]

theorem wordCycles_succ (t d : Word) (w : Nat) :
    wordCycles t d (w + 1) = wordCycles t d w ++ [(t.getLsbD w, d.getLsbD w)] := by
  simp [wordCycles, List.range_succ]

/-- The loop of `SHIFT` is a run of cycles that also fills `ACCW`. -/
theorem shiftBody_eq (p : Pins) (t d : Word) (w : Nat) (s : State) :
    shiftBody p t d w s =
      { runCycles p (wordCycles t d w) s with accw := (shiftBody p t d w s).accw } := by
  induction w with
  | zero => simp [shiftBody, wordCycles]
  | succ w ih =>
    have h : shiftBody p t d (w + 1) s = shiftTurn p t d (shiftBody p t d w s) w := by
      simp [shiftBody, List.range_succ]
    rw [h, wordCycles_succ, runCycles_append, ih]
    generalize (shiftBody p t d w s).accw = a
    generalize runCycles p (wordCycles t d w) s = u
    obtain ⟨ck, ms, dO, di⟩ := p
    cases di <;>
      simp [shiftTurn, cycle, onTdi, pinWrite, pinSample, waitFor, emit, answerAt]

/-- The word the loop of `SHIFT` assembles: sample `i` in bit `i`, zeros above. -/
theorem shiftBody_accw (p : Pins) (t d : Word) (w : Nat) (s : State) (j : Nat) (hj : j < 32) :
    (shiftBody p t d w s).accw.getLsbD j = (decide (j < w) && answerAt s j) := by
  induction w with
  | zero => simp [shiftBody]
  | succ w ih =>
    have h : shiftBody p t d (w + 1) s = shiftTurn p t d (shiftBody p t d w s) w := by
      simp [shiftBody, List.range_succ]
    have hs : answerAt (shiftBody p t d w s) 0 = answerAt s w := by
      rw [shiftBody_eq]
      simp [answerAt]
    rw [h]
    simp only [shiftTurn, cycle_accw, cycle_smp, getLsbD_insertBit, hs, ih]
    by_cases hjw : j = w
    · subst hjw
      simp [hj]
    · have h1 : (j < w + 1) ↔ (j < w) := by omega
      simp [hjw, h1]

/-! ### The stream of BYP -/

theorem streamTurn_eq (p : Pins) (i : Nat) (s : State) :
    streamTurn p i s =
      { cycle p false (s.cfg.pattern.getLsbD (i % 32)) s with
        reg := shiftInTop s.reg (answerAt s 0), cnt := BitVec.ofNat 11 (i + 1) } := by
  simp [streamTurn]

theorem streamCycles_succ (c : Config) (n : Nat) :
    streamCycles c (n + 1) = streamCycles c n ++ [(false, c.pattern.getLsbD (n % 32))] := by
  simp [streamCycles, List.range_succ]

@[simp] theorem streamCycles_length (c : Config) (n : Nat) : (streamCycles c n).length = n := by
  simp [streamCycles]

/-- The state after `i` streaming cycles from `s`, `CNT` holding `k`. -/
def streamState (p : Pins) (s : State) (i : Nat) (k : BitVec 11) : State :=
  { runCycles p (streamCycles s.cfg i) s with reg := regAfter (answerAt s) i, cnt := k }

@[simp] theorem streamState_cfg (p : Pins) (s : State) (i : Nat) (k : BitVec 11) :
    (streamState p s i k).cfg = s.cfg := by simp [streamState]

@[simp] theorem streamState_reg (p : Pins) (s : State) (i : Nat) (k : BitVec 11) :
    (streamState p s i k).reg = regAfter (answerAt s) i := rfl

@[simp] theorem streamState_cnt (p : Pins) (s : State) (i : Nat) (k : BitVec 11) :
    (streamState p s i k).cnt = k := rfl

theorem answerAt_streamState (p : Pins) (s : State) (i : Nat) (k : BitVec 11) (j : Nat) :
    answerAt (streamState p s i k) j = answerAt s (i + j) := by
  have h := answerAt_runCycles p (streamCycles s.cfg i) s j
  rw [streamCycles_length] at h
  exact h

/-- One turn of the stream. -/
theorem streamTurn_streamState (p : Pins) (s : State) (i : Nat) (k : BitVec 11) :
    streamTurn p i (streamState p s i k) = streamState p s (i + 1) (BitVec.ofNat 11 (i + 1)) := by
  rw [streamTurn_eq, answerAt_streamState]
  simp only [streamState_cfg, streamState_reg, Nat.add_zero]
  unfold streamState
  rw [streamCycles_succ, runCycles_append]
  have hc : s.cfg = (runCycles p (streamCycles s.cfg i) s).cfg := by simp
  generalize hu : runCycles p (streamCycles s.cfg i) s = u at *
  rw [hc]
  obtain ⟨ck, ms, dO, di⟩ := p
  cases di <;>
    simp [cycle, onTdi, pinWrite, pinSample, waitFor, emit, answerAt, regAfter, shiftInTop]

/-- All that the stream can do from cycle `i` on: the first match, after `c` cycles, ends it there;
without a match it ends after the budget. -/
theorem streamLoop_spec (p : Pins) (s : State) (fuel i : Nat) (k : BitVec 11) :
    (∃ c, i < c ∧ c ≤ i + fuel ∧ regAfter (answerAt s) c = s.cfg.pattern ∧
        (∀ j, i < j → j < c → regAfter (answerAt s) j ≠ s.cfg.pattern) ∧
        streamLoop p fuel i (streamState p s i k) =
          setRes (latency (BitVec.ofNat 11 c)) (streamState p s c (BitVec.ofNat 11 c))) ∨
      ((∀ j, i < j → j ≤ i + fuel → regAfter (answerAt s) j ≠ s.cfg.pattern) ∧
        ∃ k', streamLoop p fuel i (streamState p s i k) =
          setRes 0#32 (streamState p s (i + fuel) k')) := by
  induction fuel generalizing i k with
  | zero => exact .inr ⟨by omega, k, rfl⟩
  | succ fuel ih =>
    have hstep : streamLoop p (fuel + 1) i (streamState p s i k) =
        if regAfter (answerAt s) (i + 1) = s.cfg.pattern then
          setRes (latency (BitVec.ofNat 11 (i + 1))) (streamState p s (i + 1) (BitVec.ofNat 11 (i + 1)))
        else streamLoop p fuel (i + 1) (streamState p s (i + 1) (BitVec.ofNat 11 (i + 1))) := by
      simp [streamLoop, streamTurn_streamState]
    by_cases hm : regAfter (answerAt s) (i + 1) = s.cfg.pattern
    · rw [if_pos hm] at hstep
      exact .inl ⟨i + 1, by omega, by omega, hm, by omega, hstep⟩
    · rw [if_neg hm] at hstep
      rw [hstep]
      have hlow : ∀ j, i < j → ¬ (i + 1 < j) → regAfter (answerAt s) j ≠ s.cfg.pattern := by
        intro j h1 h2
        have : j = i + 1 := by omega
        exact this ▸ hm
      rcases ih (i + 1) (BitVec.ofNat 11 (i + 1)) with ⟨c, h1, h2, h3, h4, h5⟩ | ⟨h1, k', h2⟩
      · refine .inl ⟨c, by omega, by omega, h3, fun j hj1 hj2 => ?_, h5⟩
        by_cases hj : i + 1 < j
        · exact h4 j hj hj2
        · exact hlow j hj1 hj
      · have he : i + (fuel + 1) = i + 1 + fuel := by omega
        refine .inr ⟨fun j hj1 hj2 => ?_, k', by rw [he]; exact h2⟩
        by_cases hj : i + 1 < j
        · exact h1 j hj (by omega)
        · exact hlow j hj1 hj

/-! ### What a run of lines leaves alone -/

/-- `t` is `s` after line actions that used up `n` answers: what no line action touches is unchanged. -/
structure WorkFrame (n : Nat) (s t : State) : Prop where
  cfg : t.cfg = s.cfg
  bind : t.bind = s.bind
  err : t.err = s.err
  reasons : t.reasons = s.reasons
  host : t.host = s.host
  draws : t.draws = s.draws
  answers : t.answers = s.answers.drop n
  reads : t.reads = s.reads + n

theorem WorkFrame.refl (s : State) : WorkFrame 0 s s := ⟨rfl, rfl, rfl, rfl, rfl, rfl, rfl, rfl⟩

theorem WorkFrame.trans {m n : Nat} {s t u : State} (h : WorkFrame m s t) (k : WorkFrame n t u) :
    WorkFrame (m + n) s u :=
  ⟨k.cfg.trans h.cfg, k.bind.trans h.bind, k.err.trans h.err, k.reasons.trans h.reasons,
    k.host.trans h.host, k.draws.trans h.draws, by rw [k.answers, h.answers, List.drop_drop],
    by rw [k.reads, h.reads, Nat.add_assoc]⟩

theorem WorkFrame.accepted (s : State) : WorkFrame 0 s (accepted s) :=
  ⟨rfl, rfl, rfl, rfl, rfl, rfl, rfl, rfl⟩

theorem WorkFrame.setRes (v : Word) (s : State) : WorkFrame 0 s (setRes v s) :=
  ⟨rfl, rfl, rfl, rfl, rfl, rfl, rfl, rfl⟩

theorem WorkFrame.runCycles (p : Pins) (cs : List (Bool × Bool)) (s : State) :
    WorkFrame cs.length s (runCycles p cs s) := by
  rw [runCycles_frame]
  exact ⟨rfl, rfl, rfl, rfl, rfl, rfl, rfl, rfl⟩

theorem WorkFrame.cycle (p : Pins) (tms tdi : Bool) (s : State) :
    WorkFrame 1 s (cycle p tms tdi s) := WorkFrame.runCycles p [(tms, tdi)] s

theorem WorkFrame.cfgBody (p : Pins) (s : State) : WorkFrame 0 s (cfgBody p s) := by
  rw [cfgBody_frame]
  exact ⟨rfl, rfl, rfl, rfl, rfl, rfl, rfl, rfl⟩

theorem WorkFrame.shiftBody (p : Pins) (t d : Word) (w : Nat) (s : State) :
    WorkFrame w s (shiftBody p t d w s) := by
  rw [shiftBody_eq]
  have h := WorkFrame.runCycles p (wordCycles t d w) s
  rw [wordCycles_length] at h
  exact ⟨h.cfg, h.bind, h.err, h.reasons, h.host, h.draws, h.answers, h.reads⟩

theorem WorkFrame.streamState (p : Pins) (s : State) (i : Nat) (k : BitVec 11) :
    WorkFrame i s (streamState p s i k) := by
  have h := WorkFrame.runCycles p (streamCycles s.cfg i) s
  rw [streamCycles_length] at h
  exact ⟨h.cfg, h.bind, h.err, h.reasons, h.host, h.draws, h.answers, h.reads⟩

/-- A complete command whose body used up `n` answers. -/
theorem WorkFrame.complete {n : Nat} {s t : State} (h : WorkFrame n s t) :
    RunFrame n s (completed (dropWork t)) := by
  obtain ⟨h1, h2, h3, h4, h5, h6, h7, h8⟩ := h
  unfold RunFrame completed dropWork
  cases s
  cases t
  simp_all

/-- The lines after `CFG` and then at least one cycle, the last of them with TMS low. -/
theorem operationLines_of_cycleLines {p : Pins} (hp : PinsDistinct p) {s u : State} {tdi : Bool}
    (h : CycleLines p false tdi (cfgBody p s) u) : OperationLines p tdi s u := by
  obtain ⟨h1, h2, h3, h4, h5, h6⟩ := h
  obtain ⟨a1, a2, a3, a4, a5, a6⟩ := hp
  refine ⟨?_, ?_, ?_, h2, h3, ?_, fun di hdi => ⟨?_, h5 di hdi⟩, fun q hq => ⟨?_, ?_⟩⟩
  · rw [h1, dirAt_cfgBody]; grind
  · rw [h1, dirAt_cfgBody]; grind
  · rw [h1, dirAt_cfgBody]; grind
  · rw [h4, outvAt_cfgBody]; grind
  · rw [h1, dirAt_cfgBody]; grind
  · rw [(h6 q hq).1, dirAt_cfgBody]; rw [mem_pinList] at hq; grind
  · rw [(h6 q hq).2, outvAt_cfgBody]; rw [mem_pinList] at hq; grind

/-! ### One step -/

/-- All that one step can do when it answers a next state. -/
theorem step_cases {s t : State} (h : step s = .next t) :
    s.cfg.wf = true ∧
      ((s.host = [] ∧ t = s) ∨
        (∃ w rest, s.host = .command w :: rest ∧ s.busy = true ∧ t = s) ∨
        (∃ rest, s.host = .reset :: rest ∧ t = blockReset { s with host := rest }) ∨
        (∃ w rest r, s.host = .command w :: rest ∧ s.busy = false ∧ decode w = .error r ∧
          t = refusedState r { s with host := rest }) ∨
        (∃ w rest i, s.host = .command w :: rest ∧ s.busy = false ∧ decode w = .ok i ∧
          exec i { s with host := rest } = .next t)) := by
  unfold step fetch at h
  split at h
  · next hwf =>
    refine ⟨hwf, ?_⟩
    cases hh : s.host with
    | nil =>
      simp only [hh] at h
      cases h
      exact .inl ⟨rfl, rfl⟩
    | cons x rest =>
      cases x with
      | reset =>
        simp only [hh] at h
        cases h
        exact .inr (.inr (.inl ⟨rest, rfl, rfl⟩))
      | command w =>
        cases hb : s.busy with
        | true =>
          simp only [hh, hb, if_true] at h
          cases h
          exact .inr (.inl ⟨w, rest, rfl, rfl, rfl⟩)
        | false =>
          simp only [hh, hb, Bool.false_eq_true, if_false] at h
          cases hd : decode w with
          | error r =>
            rw [hd] at h
            simp only at h
            cases h
            exact .inr (.inr (.inr (.inl ⟨w, rest, r, rfl, rfl, hd, by simp [refuse_eq, refusedState]⟩)))
          | ok i =>
            rw [hd] at h
            simp only at h
            exact .inr (.inr (.inr (.inr ⟨w, rest, i, rfl, rfl, hd, h⟩)))
  · cases h

end Sys2Proof.Machine
end

