-- ==== Sys2Proof/Laws/Actions.lean ====
section
/-!
SUPPORT. Every command as a chain of line actions: what one command can do, said once, for the rules about
all commands.
-/

namespace Sys2Proof.Machine

/-- `t` comes from `s` by line actions on pins of `ps`, by working register, result and sequencer updates,
and by nothing else. -/
inductive LineActions (ps : List Pin) : State → State → Prop where
  | refl (s : State) : LineActions ps s s
  | mode {s t : State} (p : Pin) (m : Dir) (hp : p ∈ ps) (h : LineActions ps (pinMode p m s) t) :
      LineActions ps s t
  | write {s t : State} (p : Pin) (v : Bool) (hp : p ∈ ps) (h : LineActions ps (pinWrite p v s) t) :
      LineActions ps s t
  | sample {s t : State} (p : Pin) (hp : p ∈ ps) (h : LineActions ps (pinSample p s) t) :
      LineActions ps s t
  | wait {s t : State} (n : Nat) (h : LineActions ps (waitFor n s) t) : LineActions ps s t
  | registers {s t : State} (res accw reg : Word) (cnt : BitVec 11) (smp busy : Bool)
      (seqPos draws : Nat)
      (h : LineActions ps
        { s with
          res := res, accw := accw, reg := reg, cnt := cnt, smp := smp, busy := busy
          seqPos := seqPos, draws := draws } t) : LineActions ps s t

namespace LineActions

theorem trans {ps : List Pin} {s t u : State} (h : LineActions ps s t) (k : LineActions ps t u) :
    LineActions ps s u := by
  induction h with
  | refl => exact k
  | mode p m hp _ ih => exact .mode p m hp (ih k)
  | write p v hp _ ih => exact .write p v hp (ih k)
  | sample p hp _ ih => exact .sample p hp (ih k)
  | wait n _ ih => exact .wait n (ih k)
  | registers a b c d e f g i _ ih => exact .registers a b c d e f g i (ih k)

theorem ofSetRes (ps : List Pin) (v : Word) (s : State) : LineActions ps s (setRes v s) :=
  .registers v s.accw s.reg s.cnt s.smp s.busy s.seqPos s.draws (.refl _)

theorem ofAccepted (ps : List Pin) (s : State) : LineActions ps s (accepted s) :=
  .registers s.res s.accw s.reg s.cnt s.smp true 0 s.draws (.refl _)

theorem ofCompleted (ps : List Pin) (s : State) : LineActions ps s (completed s) :=
  .registers s.res s.accw s.reg s.cnt s.smp false 0 s.draws (.refl _)

theorem ofDropWork (ps : List Pin) (s : State) : LineActions ps s (dropWork s) :=
  .registers s.res (Config.freeAccw s.draws) (Config.freeReg s.draws) (Config.freeCnt s.draws)
    (Config.freeSmp s.draws) s.busy s.seqPos (s.draws + 1) (.refl _)

theorem ofCycle (p : Pins) (tms tdi : Bool) (s : State) :
    LineActions (pinList p) s (cycle p tms tdi s) := by
  obtain ⟨ck, ms, dO, di⟩ := p
  have tail : ∀ u : State, LineActions (pinList ⟨ck, ms, dO, di⟩) u
      (waitFor u.cfg.tHalf (pinWrite ck false (pinSample dO (waitFor u.cfg.tHalf (pinWrite ck true u))))) :=
    fun u => .write ck true (by simp [pinList]) (.wait _ (.sample dO (by simp [pinList])
      (.write ck false (by simp [pinList]) (.wait _ (.refl _)))))
  cases di with
  | none => exact .write ms tms (by simp [pinList]) (tail _)
  | some d => exact .write ms tms (by simp [pinList]) (.write d tdi (by simp [pinList]) (tail _))

theorem ofCfgBody (p : Pins) (s : State) : LineActions (pinList p) s (cfgBody p s) := by
  obtain ⟨ck, ms, dO, di⟩ := p
  have head : LineActions (pinList ⟨ck, ms, dO, di⟩) s
      (pinMode dO .inpu (pinWrite ms false (pinMode ms .out (pinWrite ck false (pinMode ck .out s))))) :=
    .mode ck .out (by simp [pinList]) (.write ck false (by simp [pinList])
      (.mode ms .out (by simp [pinList]) (.write ms false (by simp [pinList])
        (.mode dO .inpu (by simp [pinList]) (.refl _)))))
  cases di with
  | none => exact head
  | some d =>
    exact head.trans (.mode d .out (by simp [pinList]) (.write d false (by simp [pinList]) (.refl _)))

theorem ofRelBody (p : Pins) (s : State) : LineActions (pinList p) s (relBody p s) := by
  obtain ⟨ck, ms, dO, di⟩ := p
  have head : LineActions (pinList ⟨ck, ms, dO, di⟩) s
      (pinMode dO .inp (pinMode ms .inp (pinMode ck .inp s))) :=
    .mode ck .inp (by simp [pinList]) (.mode ms .inp (by simp [pinList])
      (.mode dO .inp (by simp [pinList]) (.refl _)))
  cases di with
  | none => exact head
  | some d => exact head.trans (.mode d .inp (by simp [pinList]) (.refl _))

theorem ofRunCycles (p : Pins) (cs : List (Bool × Bool)) (s : State) :
    LineActions (pinList p) s (runCycles p cs s) := by
  induction cs generalizing s with
  | nil => exact .refl _
  | cons c cs ih => exact (ofCycle p c.1 c.2 s).trans (ih _)

theorem ofShiftBody (p : Pins) (t d : Word) (w : Nat) (s : State) :
    LineActions (pinList p) s (shiftBody p t d w s) := by
  rw [shiftBody_eq]
  refine (ofRunCycles p (wordCycles t d w) s).trans ?_
  generalize runCycles p (wordCycles t d w) s = u
  exact .registers u.res _ u.reg u.cnt u.smp u.busy u.seqPos u.draws (.refl _)

theorem ofStreamTurn (p : Pins) (i : Nat) (s : State) :
    LineActions (pinList p) s (streamTurn p i s) := by
  rw [streamTurn_eq]
  refine (ofCycle p false (s.cfg.pattern.getLsbD (i % 32)) s).trans ?_
  generalize cycle p false (s.cfg.pattern.getLsbD (i % 32)) s = u
  exact .registers u.res u.accw _ _ u.smp u.busy u.seqPos u.draws (.refl _)

theorem ofStreamLoop (p : Pins) (fuel i : Nat) (s : State) :
    LineActions (pinList p) s (streamLoop p fuel i s) := by
  induction fuel generalizing i s with
  | zero => exact ofSetRes _ _ _
  | succ fuel ih =>
    unfold streamLoop
    simp only
    split
    · exact (ofStreamTurn p i s).trans (ofSetRes _ _ _)
    · exact (ofStreamTurn p i s).trans (ih _ _)

theorem ofRdidBody (p : Pins) (s : State) : LineActions (pinList p) s (rdidBody p s) :=
  (ofCfgBody p s).trans ((ofRunCycles p _ _).trans ((ofRunCycles p _ _).trans
    ((ofShiftBody p _ _ _ _).trans (ofSetRes _ _ _))))

theorem ofBypBody (p : Pins) (s : State) : LineActions (pinList p) s (bypBody p s) := by
  have pre : LineActions (pinList p) s (bypPreamble p s) :=
    (ofCfgBody p s).trans ((ofRunCycles p _ _).trans ((ofRunCycles p _ _).trans
      ((ofRunCycles p _ _).trans (ofRunCycles p _ _))))
  unfold bypBody
  generalize bypPreamble p s = u at pre
  exact pre.trans (.registers u.res u.accw _ _ u.smp u.busy u.seqPos u.draws (ofStreamLoop _ _ _ _))

end LineActions

/-- All that one command can do when it answers a next state: a recorded refusal, a complete line-touching
command, a binding written, or a result of the plausibility check. -/
theorem exec_cases {i : Instr} {s t : State} (h : exec i s = .next t) :
    (∃ r, t = refusedState r s)
      ∨ (∃ p, lineTouching i = true ∧ LinesReady s p ∧ LineActions (pinList p) s t ∧ EngineIdle t)
      ∨ (∃ role pin, i = .bind role pin
          ∧ (isEligible s.cfg pin = true ∨ (pin = pinNone ∧ role = .tdi))
          ∧ t = { s with bind := setBinding s.bind role pin, busy := false, seqPos := 0 })
      ∨ (∃ c, i = .acc c ∧ t = { s with res := zextBit (accept c), busy := false, seqPos := 0 }) := by
  have line : ∀ body : Pins → State → State, lineTouching i = true →
      (∀ p u, LineActions (pinList p) u (body p u)) → lineCommand body s = .next t →
      (∃ r, t = refusedState r s)
        ∨ (∃ p, lineTouching i = true ∧ LinesReady s p ∧ LineActions (pinList p) s t ∧ EngineIdle t)
        ∨ (∃ role pin, i = .bind role pin
            ∧ (isEligible s.cfg pin = true ∨ (pin = pinNone ∧ role = .tdi))
            ∧ t = { s with bind := setBinding s.bind role pin, busy := false, seqPos := 0 })
        ∨ (∃ c, i = .acc c ∧ t = { s with res := zextBit (accept c), busy := false, seqPos := 0 }) := by
    intro body hi hb hl
    rcases lineCommand_cases hl with ⟨r, -, rfl⟩ | ⟨p, hp, rfl⟩
    · exact .inl ⟨r, rfl⟩
    · exact .inr (.inl ⟨p, hi, hp,
        (LineActions.ofAccepted _ s).trans ((hb p _).trans (LineActions.ofCompleted _ _)), rfl, rfl⟩)
  cases i with
  | wrb tms tdi =>
    exact line _ rfl (fun p u => (LineActions.ofCycle p tms tdi u).trans
      ((LineActions.ofSetRes _ _ _).trans (LineActions.ofDropWork _ _))) h
  | shift tmsWord tdiWord width =>
    simp only [exec, execShift] at h
    split at h
    · exact .inl ⟨.widthRange, by cases h; rfl⟩
    · exact line _ rfl (fun p u => (LineActions.ofShiftBody p _ _ _ u).trans
        ((LineActions.ofSetRes _ _ _).trans (LineActions.ofDropWork _ _))) h
  | rst =>
    exact line _ rfl (fun p u => (LineActions.ofRunCycles p _ u).trans (LineActions.ofDropWork _ _)) h
  | cfg => exact line _ rfl (fun p u => LineActions.ofCfgBody p u) h
  | rel => exact line _ rfl (fun p u => LineActions.ofRelBody p u) h
  | rdid =>
    exact line _ rfl (fun p u => (LineActions.ofRdidBody p u).trans (LineActions.ofDropWork _ _)) h
  | byp =>
    exact line _ rfl (fun p u => (LineActions.ofBypBody p u).trans (LineActions.ofDropWork _ _)) h
  | acc c => exact .inr (.inr (.inr ⟨c, rfl, by cases h; rfl⟩))
  | bind role pin =>
    simp only [exec, execBind] at h
    split at h
    · next hh => exact .inr (.inr (.inl ⟨role, pin, rfl, by simpa using hh, by cases h; rfl⟩))
    · exact .inl ⟨.pinRange, by cases h; rfl⟩

/-- Line actions leave the configuration, the bindings, `ERR`, the recorded reasons and the host's inputs
alone. -/
theorem LineActions.unchanged {ps : List Pin} {s t : State} (h : LineActions ps s t) :
    t.cfg = s.cfg ∧ t.bind = s.bind ∧ t.err = s.err ∧ t.reasons = s.reasons ∧ t.host = s.host := by
  induction h with
  | refl => exact ⟨rfl, rfl, rfl, rfl, rfl⟩
  | mode _ _ _ _ ih => exact ih
  | write _ _ _ _ ih => exact ih
  | sample _ _ _ ih => exact ih
  | wait _ _ ih => exact ih
  | registers _ _ _ _ _ _ _ _ _ ih => exact ih

/-! ### Fixed lists of cycles -/

theorem seqIdleToShiftDr_eq : seqIdleToShiftDr = [(true, false), (false, false), (false, false)] := by
  decide

theorem seqIdleToShiftIr_eq :
    seqIdleToShiftIr = [(true, false), (true, false), (false, false), (false, false)] := by decide

theorem seqLoadBypass_eq : seqLoadBypass = List.replicate 7 (false, true) ++ [(true, true)] := by decide

theorem seqExitIrToShiftDr_eq :
    seqExitIrToShiftDr = [(true, false), (true, false), (false, false), (false, false)] := by decide

theorem captureCycles_eq : wordCycles 0#32 0#32 32 = List.replicate 32 (false, false) := by decide

@[simp] theorem rstCycles_length (c : Config) : (rstCycles c).length = rstCount c := by
  simp [rstCycles, rstCount]

end Sys2Proof.Machine
end

