-- ==== Sys2Proof/Laws/PerInstr.lean ====
section
/-!
SUPPORT. The bits of each encoding, and statements about every command as syntax, one lemma per
constructor: the encoding of a command carries its opcode in bits 79:72 (`30_encoding.md` R60, R66).
-/

namespace Sys2Proof.Laws

/-! ### The bits of an encoding -/

/-- A command word with no operand, bit by bit (R61). -/
theorem zero_payload_bit (opc : BitVec 8) (i : Nat) :
    (opc ++ 0#72 : Command).getLsbD i = if i < 72 then false else opc.getLsbD (i - 72) := by
  have h := BitVec.getLsbD_append (x := opc) (y := 0#72) (i := i)
  rw [BitVec.getLsbD_zero] at h
  exact h

/-- The word of `WRB`, bit by bit (R62). -/
theorem encode_wrb_bit (tms tdi : Bool) (i : Nat) :
    (encode (.wrb tms tdi)).getLsbD i =
      if i = 0 then tms else if i = 1 then tdi else if i < 72 then false
      else (0x01#8).getLsbD (i - 72) := by
  have h1 := BitVec.getLsbD_append (x := 0x01#8 ++ 0#70 ++ BitVec.ofBool tdi) (y := BitVec.ofBool tms)
    (i := i)
  have h2 := BitVec.getLsbD_append (x := 0x01#8 ++ 0#70) (y := BitVec.ofBool tdi) (i := i - 1)
  have h3 := BitVec.getLsbD_append (x := 0x01#8) (y := 0#70) (i := i - 1 - 1)
  refine h1.trans ?_
  rw [h2, h3]
  grind

/-- The word of `SHIFT`, bit by bit (R63). -/
theorem encode_shift_bit (tmsWord tdiWord : Word) (width : BitVec 6) (i : Nat) :
    (encode (.shift tmsWord tdiWord width)).getLsbD i =
      if i < 32 then tdiWord.getLsbD i else if i < 64 then tmsWord.getLsbD (i - 32)
      else if i < 66 then false else if i < 72 then width.getLsbD (i - 66)
      else (0x02#8).getLsbD (i - 72) := by
  have h1 := BitVec.getLsbD_append (x := 0x02#8 ++ width ++ 0#2 ++ tmsWord) (y := tdiWord) (i := i)
  have h2 := BitVec.getLsbD_append (x := 0x02#8 ++ width ++ 0#2) (y := tmsWord) (i := i - 32)
  have h3 := BitVec.getLsbD_append (x := 0x02#8 ++ width) (y := 0#2) (i := i - 32 - 32)
  have h4 := BitVec.getLsbD_append (x := 0x02#8) (y := width) (i := i - 32 - 32 - 2)
  refine h1.trans ?_
  rw [h2, h3, h4]
  grind

/-- The word of `ACC`, bit by bit (R64). -/
theorem encode_acc_bit (code : Word) (i : Nat) :
    (encode (.acc code)).getLsbD i =
      if i < 32 then code.getLsbD i else if i < 72 then false else (0x08#8).getLsbD (i - 72) := by
  have h1 := BitVec.getLsbD_append (x := 0x08#8 ++ 0#40) (y := code) (i := i)
  have h2 := BitVec.getLsbD_append (x := 0x08#8) (y := 0#40) (i := i - 32)
  refine h1.trans ?_
  rw [h2]
  grind

/-- The word of `BIND`, bit by bit (R65). -/
theorem encode_bind_bit (role : Role) (pin : Pin) (i : Nat) :
    (encode (.bind role pin)).getLsbD i =
      if i < 8 then pin.getLsbD i else if i < 10 then (fieldOfRole role).getLsbD (i - 8)
      else if i < 72 then false else (0x09#8).getLsbD (i - 72) := by
  have h1 := BitVec.getLsbD_append (x := 0x09#8 ++ 0#62 ++ fieldOfRole role) (y := pin) (i := i)
  have h2 := BitVec.getLsbD_append (x := 0x09#8 ++ 0#62) (y := fieldOfRole role) (i := i - 8)
  have h3 := BitVec.getLsbD_append (x := 0x09#8) (y := 0#62) (i := i - 8 - 2)
  refine h1.trans ?_
  rw [h2, h3]
  grind

/-! ### The opcode of an encoding -/

/-- The opcode field of the encoding is the command's opcode (R60, R66). -/
def EncodeOpcode.Statement (i : Instr) : Prop := opcField (encode i) = i.opc

/-- A command word whose top bits are those of `opc` has the opcode `opc`. -/
theorem opcField_of_bits {w : Command} {opc : BitVec 8}
    (h : ∀ i, 72 ≤ i → w.getLsbD i = opc.getLsbD (i - 72)) : opcField w = opc := by
  unfold opcField
  ext i hi
  rw [BitVec.getElem_extractLsb', h (72 + i) (by omega), Nat.add_sub_cancel_left,
    ← BitVec.getLsbD_eq_getElem]

theorem EncodeOpcode.wrb (tms tdi : Bool) : EncodeOpcode.Statement (.wrb tms tdi) := by
  refine opcField_of_bits fun i hi => ?_
  rw [encode_wrb_bit, if_neg (by omega), if_neg (by omega), if_neg (by omega)]
  rfl

theorem EncodeOpcode.shift (tmsWord tdiWord : Word) (width : BitVec 6) :
    EncodeOpcode.Statement (.shift tmsWord tdiWord width) := by
  refine opcField_of_bits fun i hi => ?_
  rw [encode_shift_bit, if_neg (by omega), if_neg (by omega), if_neg (by omega), if_neg (by omega)]
  rfl

theorem EncodeOpcode.rst : EncodeOpcode.Statement .rst := by rfl

theorem EncodeOpcode.cfg : EncodeOpcode.Statement .cfg := by rfl

theorem EncodeOpcode.rel : EncodeOpcode.Statement .rel := by rfl

theorem EncodeOpcode.rdid : EncodeOpcode.Statement .rdid := by rfl

theorem EncodeOpcode.byp : EncodeOpcode.Statement .byp := by rfl

theorem EncodeOpcode.acc (code : Word) : EncodeOpcode.Statement (.acc code) := by
  refine opcField_of_bits fun i hi => ?_
  rw [encode_acc_bit, if_neg (by omega), if_neg (by omega)]
  rfl

theorem EncodeOpcode.bind (role : Role) (pin : Pin) : EncodeOpcode.Statement (.bind role pin) := by
  refine opcField_of_bits fun i hi => ?_
  rw [encode_bind_bit, if_neg (by omega), if_neg (by omega), if_neg (by omega)]
  rfl

end Sys2Proof.Laws
end

