-- ==== Sys2Proof/Tests/Slice0.lean ====
section
/-!
SUPPORT. Tests on fixed values, expected results taken from `95_test_vectors.md` (the vector's name stands
in each comment) or from the rule named, and one witness for the hypotheses of each obligation that has
some.
-/

namespace Sys2Proof.Tests

open Sys2Proof.Machine

/-! ### Helpers -/

/-- The record of `95_test_vectors.md`. -/
abbrev cfg0 : Config := Config.sample

/-- The bindings of `95_test_vectors.md`: TCK 2, TMS 3, TDO 4 and the given TDI, with given answers. -/
def ready (tdi : Pin) (answers : List Bool) : State :=
  { State.reset with bind := { tck := 2, tms := 3, tdo := 4, tdi := tdi }, answers := answers }

/-- The pins of `ready 5`. -/
def pins4 : Pins := { ck := 2, ms := 3, dO := 4, di := some 5 }

/-- The pins of `ready pinNone`. -/
def pins3 : Pins := { ck := 2, ms := 3, dO := 4, di := none }

/-- One view of a next state. -/
def view (o : Host.Outcome State Fault Refusal) (f : State → α) : Option α :=
  match o with
  | .next t => some (f t)
  | _ => none

/-- Reset state with one command word on the port. -/
def given (w : Command) : State := { State.reset with host := [.command w] }

/-! ### WellFormed refuses each ill-formed term -/

theorem test_shift_width_33_is_ill_formed : (Instr.shift 0 0 33).wellFormed = false := by decide

theorem test_shift_width_32_is_well_formed : (Instr.shift 0 0 32).wellFormed = true := by decide

theorem test_bind_tck_none_is_ill_formed : (Instr.bind .tck pinNone).wellFormed = false := by decide

theorem test_bind_tdi_none_is_well_formed : (Instr.bind .tdi pinNone).wellFormed = true := by decide

theorem test_sample_configuration_is_legal : cfg0.wf = true := by decide

theorem test_pin_255_is_ill_formed : ({ cfg0 with eligible := [255] } : Config).wf = false := by decide

theorem test_pin_254_is_well_formed : ({ cfg0 with eligible := [254] } : Config).wf = true := by decide

theorem test_repeated_pin_is_ill_formed : ({ cfg0 with eligible := [2, 2] } : Config).wf = false := by
  decide

theorem test_falling_pins_are_ill_formed : ({ cfg0 with eligible := [3, 2] } : Config).wf = false := by
  decide

theorem test_half_period_0_is_ill_formed : ({ cfg0 with tHalf := 0 } : Config).wf = false := by decide

theorem test_reset_5_is_ill_formed : ({ cfg0 with nReset := 5 } : Config).wf = false := by decide

theorem test_idle_0_is_ill_formed : ({ cfg0 with nIdle := 0 } : Config).wf = false := by decide

theorem test_even_pattern_is_ill_formed :
    ({ cfg0 with pattern := 0xDEADBEEE } : Config).wf = false := by decide

theorem test_periodic_pattern_is_ill_formed :
    ({ cfg0 with pattern := 0x00010001 } : Config).wf = false := by decide

/-- The second legal pattern of section 2.4. -/
theorem test_pattern_1_is_well_formed : ({ cfg0 with pattern := 1 } : Config).wf = true := by decide

/-! ### Every command decodes from its written word (N1 to N24, pseudo-commands N5 to N8) -/

theorem test_decode_wrb :
    decodeTableWord 80 0x01000000000000000000 = some (.wrb false false)
      ∧ decodeTableWord 80 0x01000000000000000001 = some (.wrb true false)
      ∧ decodeTableWord 80 0x01000000000000000002 = some (.wrb false true)
      ∧ decodeTableWord 80 0x01000000000000000003 = some (.wrb true true) := by decide

theorem test_decode_shift :
    decodeTableWord 80 0x020C0000000100000000 = some toShiftDr
      ∧ decodeTableWord 80 0x02100000000300000000 = some toShiftIr
      ∧ decodeTableWord 80 0x022000000080000000FF = some loadBypass
      ∧ decodeTableWord 80 0x02800000000000000000 = some capture32
      ∧ decodeTableWord 80 0x022000000000000000A5 = some (.shift 0 0xA5 8)
      ∧ decodeTableWord 80 0x02000000000000000000 = some (.shift 0 0 0)
      ∧ decodeTableWord 80 0x0280FFFFFFFFFFFFFFFF = some (.shift 0xFFFFFFFF 0xFFFFFFFF 32) := by decide

theorem test_decode_rst : decodeTableWord 80 0x03000000000000000000 = some .rst := by decide

theorem test_decode_cfg : decodeTableWord 80 0x04000000000000000000 = some .cfg := by decide

theorem test_decode_rel : decodeTableWord 80 0x05000000000000000000 = some .rel := by decide

theorem test_decode_rdid : decodeTableWord 80 0x06000000000000000000 = some .rdid := by decide

theorem test_decode_byp : decodeTableWord 80 0x07000000000000000000 = some .byp := by decide

theorem test_decode_acc :
    decodeTableWord 80 0x0800000000004BA00477 = some (.acc 0x4BA00477)
      ∧ decodeTableWord 80 0x080000000000FFFFFFFF = some (.acc 0xFFFFFFFF) := by decide

theorem test_decode_bind :
    decodeTableWord 80 0x09000000000000000002 = some (.bind .tck 2)
      ∧ decodeTableWord 80 0x09000000000000000103 = some (.bind .tms 3)
      ∧ decodeTableWord 80 0x09000000000000000204 = some (.bind .tdo 4)
      ∧ decodeTableWord 80 0x09000000000000000305 = some (.bind .tdi 5)
      ∧ decodeTableWord 80 0x090000000000000003FF = some (.bind .tdi pinNone) := by decide

theorem test_encode_written_words :
    encode (.wrb true false) = 0x01000000000000000001#80
      ∧ encode loadBypass = 0x022000000080000000FF#80
      ∧ encode .rst = 0x03000000000000000000#80
      ∧ encode (.acc 0x4BA00477) = 0x0800000000004BA00477#80
      ∧ encode (.bind .tdo 4) = 0x09000000000000000204#80 := by decide

/-- X1 to X3. -/
theorem test_reserved_opcodes :
    decode 0x00000000000000000000#80 = .error .reservedOpcode
      ∧ decode 0x0A000000000000000000#80 = .error .reservedOpcode
      ∧ decode 0xFFFFFFFFFFFFFFFFFFFF#80 = .error .reservedOpcode := by decide

/-- X4 to X6, X9, X10, X18. -/
theorem test_reserved_fields :
    decode 0x01000000000000000004#80 = .error .reservedField
      ∧ decode 0x03000000000000000001#80 = .error .reservedField
      ∧ decode 0x02210000000000000000#80 = .error .reservedField
      ∧ decode 0x02850000000000000000#80 = .error .reservedField
      ∧ decode 0x08000000000100000000#80 = .error .reservedField
      ∧ decode 0x09000000000000000402#80 = .error .reservedField := by decide

/-- X7, X8, X12. -/
theorem test_ranges :
    decode 0x02840000000000000000#80 = .error .widthRange
      ∧ decode 0x02FC0000000000000000#80 = .error .widthRange
      ∧ decode 0x090000000000000000FF#80 = .error .pinRange
      ∧ decode 0x090000000000000001FF#80 = .error .pinRange
      ∧ decode 0x090000000000000002FF#80 = .error .pinRange := by decide

/-- The rows of spec/opcode_table.json and `opcodeMap` name the same words: `SHIFT`'s row. -/
theorem test_opcode_map_shift_row :
    (opcodeMap.filter (fun r => r.fits 0x022000000080000000FF#80)).map OpRow.mnemonic = ["SHIFT"] := by
  decide

theorem test_assembler_text : assemblerText (.bind .tdi pinNone) = "BIND TDI, NONE" := by decide

/-! ### One command each -/

/-- T2: the events of `CFG`. -/
theorem test_cfg_trace :
    view (exec .cfg (ready 5 [])) State.trace =
      some [.mode 2 .out, .write 2 false, .mode 3 .out, .write 3 false, .mode 4 .inpu, .mode 5 .out,
        .write 5 false] := by decide

/-- T2: what the line port shows after `CFG`. -/
theorem test_cfg_line_port :
    view (exec .cfg (ready 5 [])) (fun t => (oeAt t 2, puAt t 4, oeAt t 4, outAt t 5, oeAt t 6)) =
      some (true, true, false, false, false) := by decide

/-- T6: `REL` without TDI. -/
theorem test_rel_trace :
    view (exec .rel (ready pinNone [])) State.trace = some [.mode 2 .inp, .mode 3 .inp, .mode 4 .inp] := by
  decide

/-- T5: `REL` leaves the latches. -/
theorem test_rel_keeps_latches :
    view (exec .rel { ready 5 [] with lines := [(3, { dir := .out, outv := true })] })
      (fun t => (dirAt t 3, outvAt t 3)) = some (.inp, true) := by decide

/-- W1. -/
theorem test_wrb_trace :
    view (exec (.wrb true false) (ready 5 [true])) (fun t => (t.res, t.trace)) =
      some (1#32, [.write 3 true, .write 5 false, .write 2 true, .delay 1, .read 4 true, .write 2 false,
        .delay 1]) := by decide

/-- W3: TDI unused. -/
theorem test_wrb_without_tdi :
    view (exec (.wrb true true) (ready pinNone [false])) (fun t => (t.res, t.trace.length, outvAt t 5)) =
      some (0#32, 6, false) := by decide

/-- S4: loopback, least significant bit first. -/
theorem test_shift_loopback :
    view (exec (.shift 0 0xA5 8) (ready 5 [true, false, true, false, false, true, false, true]))
      State.res = some 0xA5#32 := by decide

/-- S7: a width of 0 clears `RES` and does nothing else. -/
theorem test_shift_width_0 :
    view (exec (.shift 0xFFFFFFFF 0xFFFFFFFF 0) { ready 5 [] with res := 0x1F#32 })
      (fun t => (t.res, t.trace, t.lines)) = some (0#32, [], []) := by decide

/-- Q2: 49 events, TMS left low, `RES` unchanged. -/
theorem test_rst :
    view (exec .rst { ready 5 (List.replicate 7 true) with res := 9#32 })
      (fun t => (t.trace.length, t.res, outvAt t 3)) = some (49, 9#32, false) := by decide +kernel

/-- I1 and I4: the captured word, or 0. -/
theorem test_rdid :
    view (exec .rdid (ready pinNone (List.replicate 10 false ++ captureAnswers 0x4BA00477#32)))
        (fun t => (t.res, t.trace.length)) = some (0x4BA00477#32, 257)
      ∧ view (exec .rdid (ready pinNone (List.replicate 10 false ++ captureAnswers 0x4BA00476#32)))
        State.res = some 0#32 := by decide +kernel

/-- I7 and I8: the boundary of the count of ones. -/
theorem test_rdid_ones :
    view (exec .rdid (ready 5 (List.replicate 10 true ++ captureAnswers 0x000011FF#32))) State.res =
        some 0x000011FF#32
      ∧ view (exec .rdid (ready 5 (List.replicate 10 true ++ captureAnswers 0x0000307F#32))) State.res =
        some 0#32 := by decide +kernel

/-- B2: an echo with delay 1 returns 1 after 33 streaming cycles, 399 events. -/
theorem test_byp_echo_1 :
    view (exec .byp (ready 5 (List.replicate 23 false ++ echoAnswers cfg0 1 40)))
      (fun t => (t.res, t.trace.length, outvAt t 5)) = some (1#32, 399, true) := by decide +kernel

/-- B4: delay 5 ends on bit 4 of the pattern, which is 0. -/
theorem test_byp_echo_5 :
    view (exec .byp (ready 5 (List.replicate 23 false ++ echoAnswers cfg0 5 40)))
      (fun t => (t.res, t.reads, outvAt t 5)) = some (5#32, 60, false) := by decide +kernel

/-- A3, A4, A11 to A14, A16, A18, A19: the plausibility check. -/
theorem test_accept :
    accept 0x4BA00477 = true ∧ accept 0x4BA00476 = false ∧ accept 0x000011FF = true
      ∧ accept 0x0000307F = false ∧ accept 0x02FFE7FD = true ∧ accept 0x06FFE7FD = false
      ∧ accept 0x00001FFD = true ∧ accept 0x00001FFF = false ∧ accept 0x0FFFE003 = true
      ∧ accept 0x0FFFF003 = false ∧ accept 0xE00011FF = true ∧ accept 0xF00011FF = false := by decide

/-- `ACC` works after reset, with nothing bound. -/
theorem test_acc :
    view (exec (.acc 0x4BA00477) State.reset) (fun t => (t.res, t.err, t.trace)) = some (1#32, false, []) := by
  decide

/-- N24 and X11. -/
theorem test_bind :
    view (exec (.bind .tdi pinNone) (ready 5 [])) (fun t => (t.bind.tdi, t.err)) = some (pinNone, false)
      ∧ view (exec (.bind .tck 9) (ready 5 [])) (fun t => (t.bind.tck, t.err)) = some (2, true) := by decide

/-- X13, X15, X16: `LineCheck` refuses, with no event. -/
theorem test_line_check_refusals :
    view (exec .cfg State.reset) (fun t => (t.err, t.reasons, t.trace)) = some (true, [.roleUnbound], [])
      ∧ view (exec .rdid { ready pinNone [] with bind := { tck := 2, tms := 3, tdo := 2, tdi := pinNone } })
        State.reasons = some [.pinAlias]
      ∧ view (exec .byp (ready 3 [])) State.reasons = some [.pinAlias] := by decide

/-- X17: through a step, width before role. -/
theorem test_step_refuses_width_first :
    view (step (given 0x02840000000000000000#80)) (fun t => (t.err, t.reasons)) =
      some (true, [.widthRange]) := by decide

theorem test_step_runs_presented_word :
    view (step (State.reset.withFetchWord 80 0x09000000000000000002)) (fun t => (t.bind.tck, t.host)) =
      some (2, []) := by decide

/-! ### The host and the reference target -/

/-- H1, its count and its first and last rows. -/
theorem test_search_order :
    (assignments 3 [0, 1, 2, 3]).length = 24 ∧ (assignments 3 [0, 1, 2, 3])[9]? = some [1, 2, 3]
      ∧ (assignments 3 [0, 1, 2, 3])[23]? = some [3, 2, 1] := by decide

/-- H4 to H6. -/
theorem test_id_code_verdict :
    idCodeVerdict 0x4BA00477 0x4BA00477 0x4BA00477 = true
      ∧ idCodeVerdict 0x4BA00477 0x4BA00477 0 = false ∧ idCodeVerdict 0 0 0 = false := by decide

/-- P2 (a): 774 events, accepted, every line passive. -/
theorem test_test_id_code :
    (testIdCode 2 3 4 { State.reset with
        answers := (List.replicate 3 (List.replicate 10 false ++ captureAnswers 0x4BA00477#32)).flatten }).map
      (fun x => (x.1, x.2.trace.length, drivenPins x.2)) = some (true, 774, []) := by decide +kernel

/-- H7, and the row of an accepted evaluation. -/
theorem test_bypass_verdict :
    bypassVerdict 1 = true ∧ bypassVerdict 992 = true ∧ bypassVerdict 0 = false
      ∧ bypassRow .quiet 0 State.reset = none
      ∧ (bypassRow .quiet 1 State.reset).map ResultRow.resultValue = some 1#32 := by decide

/-- The reference device of `95_test_vectors.md`: a 4-bit instruction register. -/
def device0 : Device :=
  { id := 0x4BA00477#32, irCapture := [true, false, false, false], select := fun _ => .idcode }

/-- The reference target after power-up. -/
def target0 : Target := { tap := .pauseIr, sel := .bypass, irs := [true], drs := [], q := none }

/-- What the reference target answers to a list of cycles, an undriven line reading 1. -/
def replies (d : Device) : Target → List (Bool × Bool) → List Bool
  | _, [] => []
  | t, c :: cs => t.q.getD true :: replies d (targetCycle d c.1 c.2 t) cs

/-! ### Witnesses: states and operands that meet the hypotheses of each obligation -/

/-- Listed answers are the answers. -/
theorem answersFrom_listed (s : State) (pre xs post : List Bool) (h : s.answers = pre ++ (xs ++ post)) :
    answersFrom s pre.length xs.length = xs := by
  apply List.ext_getElem
  · simp
  · intro i h1 h2
    have hi : (pre ++ (xs ++ post))[pre.length + i]? = some xs[i] := by
      rw [List.getElem?_append_right (Nat.le_add_right _ _), Nat.add_sub_cancel_left,
        List.getElem?_append_left h2, List.getElem?_eq_getElem h2]
    simp [answersFrom, answerAt, h, hi]

theorem ready_lines4 (answers : List Bool) : LinesReady (ready 5 answers) pins4 := ⟨by rfl, by rfl⟩

theorem ready_lines3 (answers : List Bool) : LinesReady (ready pinNone answers) pins3 := ⟨by rfl, by rfl⟩

theorem witness_DecodeOfEncode :
    (Instr.shift 1 1 32).wellFormed = true ∧ (Instr.shift 0 0 0).wellFormed = true
      ∧ (Instr.bind .tdi pinNone).wellFormed = true ∧ (Instr.bind .tck 254).wellFormed = true := by decide

theorem witness_EncodeOfDecode : decode 0x0280FFFFFFFFFFFFFFFF#80 = .ok (.shift 0xFFFFFFFF 0xFFFFFFFF 32) := by
  decide

theorem witness_DecoderFollowsOpcodeMap :
    decode 0x090000000000000003FF#80 = .ok (.bind .tdi pinNone)
      ∧ (∀ r ∈ opcodeMap, r.fits 0x0A000000000000000000#80 = false)
      ∧ decode 0x09000000000000000400#80 = .error .reservedField := by decide

theorem witness_ReservedWordsAreRefused :
    (given 0).cfg.wf = true ∧ (given 0).busy = false ∧ (given 0).host = .command 0 :: []
      ∧ opcField 0x00000000000000000000#80 = 0x00#8 ∧ 0x0A#8 ≤ opcField 0x0A000000000000000000#80
      ∧ 0x0A#8 ≤ opcField 0xFFFFFFFFFFFFFFFFFFFF#80 := by decide

theorem witness_ReservedWordsAreRefused_fields :
    (opcField 0x01000000000000000004#80 = 0x01#8
        ∧ (0x01000000000000000004#80).extractLsb' 2 70 ≠ 0#70)
      ∧ (opcField 0x02210000000000000000#80 = 0x02#8
        ∧ (0x02210000000000000000#80).extractLsb' 64 2 ≠ 0#2)
      ∧ (opcField 0x03000000000000000001#80 = 0x03#8
        ∧ (0x03000000000000000001#80).extractLsb' 0 72 ≠ 0#72)
      ∧ (opcField 0x07800000000000000000#80 = 0x07#8
        ∧ (0x07800000000000000000#80).extractLsb' 0 72 ≠ 0#72)
      ∧ (opcField 0x08000000000100000000#80 = 0x08#8
        ∧ (0x08000000000100000000#80).extractLsb' 32 40 ≠ 0#40)
      ∧ (opcField 0x09000000000000000402#80 = 0x09#8
        ∧ (0x09000000000000000402#80).extractLsb' 10 62 ≠ 0#62) := by decide

theorem witness_ReservedWordsAreRefused_ranges :
    (opcField 0x02840000000000000000#80 = 0x02#8 ∧ (0x02840000000000000000#80).extractLsb' 64 2 = 0#2
        ∧ 33#6 ≤ (0x02840000000000000000#80).extractLsb' 66 6)
      ∧ (opcField 0x02FC0000000000000000#80 = 0x02#8
        ∧ 33#6 ≤ (0x02FC0000000000000000#80).extractLsb' 66 6)
      ∧ ((0x09000000000000000308#80).extractLsb' 10 62 = 0#62
        ∧ isEligible cfg0 ((0x09000000000000000308#80).extractLsb' 0 8) = false)
      ∧ ((0x090000000000000002FF#80).extractLsb' 0 8 = 0xFF#8
        ∧ (0x090000000000000002FF#80).extractLsb' 8 2 ≠ 3#2) := by decide

theorem witness_BlockResetIsTakenAnyTime :
    ({ ready 5 [] with busy := true, host := [.reset] } : State).cfg.wf = true
      ∧ ({ ready 5 [] with busy := true, host := [.reset] } : State).host = .reset :: [] := by decide

theorem witness_StepRunsTheDecodedCommand :
    (given 0x03000000000000000000#80).cfg.wf = true ∧ (given 0x03000000000000000000#80).busy = false
      ∧ (given 0x03000000000000000000#80).host = .command 0x03000000000000000000#80 :: []
      ∧ decode 0x03000000000000000000#80 = .ok .rst := by decide

theorem witness_PresentedCommandRuns :
    State.reset.cfg.wf = true ∧ (Instr.shift 0 0 32).wellFormed = true := by decide

theorem witness_NothingAcceptedNothingChanges :
    State.reset.cfg.wf = true ∧ State.reset.host = []
      ∧ ({ given 0 with busy := true } : State).cfg.wf = true
      ∧ ({ given 0 with busy := true } : State).host = .command 0 :: []
      ∧ ({ given 0 with busy := true } : State).busy = true := by decide

theorem witness_LineCheckRule :
    lineTouching .byp = true ∧ Instr.byp.wellFormed = true
      ∧ lineCheck State.reset.bind = .error .roleUnbound ∧ lineCheck (ready 3 []).bind = .error .pinAlias
      ∧ lineCheck (ready 5 []).bind = .ok pins4 ∧ lineCheck (ready pinNone []).bind = .ok pins3 := by decide

theorem witness_MissingPinStops :
    lineTouching .cfg = true ∧ Instr.cfg.wellFormed = true
      ∧ lineCheck (ready 8 []).bind = .ok { pins4 with di := some 8 }
      ∧ missingPin (ready 8 []).cfg { pins4 with di := some 8 } = some 8 := by decide

theorem witness_RefusalChangesOnlyErr :
    exec .cfg State.reset = .next (refusedState .roleUnbound State.reset)
      ∧ (refusedState .roleUnbound State.reset).reasons ≠ State.reset.reasons
      ∧ exec (.bind .tck 2) State.reset =
        .next { State.reset with bind := { State.reset.bind with tck := 2 } } :=
  ⟨rfl, by decide, rfl⟩

theorem witness_ErrIsSticky :
    step { State.reset with err := true } = .next { State.reset with err := true }
      ∧ ({ State.reset with err := true } : State).err = true
      ∧ ∀ rest, ({ State.reset with err := true } : State).host ≠ .reset :: rest :=
  ⟨rfl, rfl, fun _ h => nomatch h⟩

theorem witness_BindRule :
    isEligible State.reset.cfg 0 = true ∧ isEligible State.reset.cfg 7 = true
      ∧ (pinNone = pinNone ∧ Role.tdi = .tdi)
      ∧ ¬ (isEligible State.reset.cfg 8 = true ∨ (8 = pinNone ∧ Role.tdi = .tdi))
      ∧ ¬ (isEligible State.reset.cfg pinNone = true ∨ (pinNone = pinNone ∧ Role.tck = .tdi)) := by decide

theorem witness_AcceptConsequences : accept 0x4BA00477#32 = true := by decide

/-- For every rule with `LinesReady`, with and without TDI, and with `LineCheck` failing. -/
theorem witness_CfgRule :
    LinesReady (ready 5 []) pins4 ∧ LinesReady (ready pinNone []) pins3
      ∧ lineCheck State.reset.bind = .error .roleUnbound := ⟨ready_lines4 [], ready_lines3 [], rfl⟩

theorem witness_RelRule :
    LinesReady (ready 5 []) pins4 ∧ LinesReady (ready pinNone []) pins3
      ∧ lineCheck (ready 2 []).bind = .error .pinAlias := ⟨ready_lines4 [], ready_lines3 [], rfl⟩

theorem witness_WrbRule :
    LinesReady (ready 5 [true]) pins4 ∧ LinesReady (ready pinNone []) pins3
      ∧ lineCheck State.reset.bind = .error .roleUnbound := ⟨ready_lines4 _, ready_lines3 [], rfl⟩

theorem witness_ShiftRule :
    33#6 ≤ 33#6 ∧ 33#6 ≤ 63#6 ∧ 32#6 ≤ 32#6 ∧ (0#6).toNat = 0 ∧ (1#6).toNat = 0 + 1
      ∧ (32#6).toNat = 31 + 1 ∧ lineCheck State.reset.bind = .error .roleUnbound := by decide

theorem witness_ShiftRule_lines : LinesReady (ready 5 [true, false]) pins4 := ready_lines4 _

theorem witness_RstRule :
    (ready 5 []).cfg.wf = true ∧ LinesReady (ready 5 []) pins4
      ∧ lineCheck State.reset.bind = .error .roleUnbound := ⟨by decide, ready_lines4 [], rfl⟩

theorem witness_RdidRule :
    LinesReady (ready pinNone []) pins3 ∧ lineCheck (ready 4 []).bind = .error .pinAlias :=
  ⟨ready_lines3 [], rfl⟩

theorem witness_BypRule :
    LinesReady (ready 5 []) pins4 ∧ lineCheck State.reset.bind = .error .roleUnbound :=
  ⟨ready_lines4 [], rfl⟩

theorem witness_BypResultIsALatency :
    (ready 5 []).cfg.wf = true ∧ LinesReady (ready 5 []) pins4 := ⟨by decide, ready_lines4 []⟩

/-- A ready state whose streaming answers are given. -/
def streaming (xs : List Bool) : State := ready 5 (List.replicate 23 false ++ (xs ++ []))

theorem streaming_answers (xs : List Bool) (h : xs.length = 1024) :
    answersFrom (streaming xs) (rstCount (streaming xs).cfg + 16) 1024 = xs := by
  have := answersFrom_listed (streaming xs) (List.replicate 23 false) xs [] rfl
  rwa [h, List.length_replicate] at this

theorem witness_BypReturnsTheEchoDelay (n : Nat) :
    (streaming (echoAnswers cfg0 n 1024)).cfg.wf = true
      ∧ LinesReady (streaming (echoAnswers cfg0 n 1024)) pins4
      ∧ answersFrom (streaming (echoAnswers cfg0 n 1024))
          (rstCount (streaming (echoAnswers cfg0 n 1024)).cfg + 16) 1024 =
        echoAnswers (streaming (echoAnswers cfg0 n 1024)).cfg n 1024 :=
  ⟨(by decide : cfg0.wf = true), ready_lines4 _, streaming_answers _ (by simp [echoAnswers])⟩

theorem witness_BypOnAStuckLineIsZero (b : Bool) :
    (streaming (List.replicate 1024 b)).cfg.wf = true
      ∧ LinesReady (streaming (List.replicate 1024 b)) pins4
      ∧ answersFrom (streaming (List.replicate 1024 b))
          (rstCount (streaming (List.replicate 1024 b)).cfg + 16) 1024 = List.replicate 1024 b :=
  ⟨(by decide : cfg0.wf = true), ready_lines4 _, streaming_answers _ (by rw [List.length_replicate])⟩

theorem witness_RdidReturnsTheFixedCapture (v : Word) :
    LinesReady (ready pinNone (List.replicate 10 true ++ (captureAnswers v ++ []))) pins3
      ∧ answersFrom (ready pinNone (List.replicate 10 true ++ (captureAnswers v ++ [])))
          (rstCount cfg0 + 3) 32 = captureAnswers v := by
  refine ⟨ready_lines3 _, ?_⟩
  have := answersFrom_listed (ready pinNone (List.replicate 10 true ++ (captureAnswers v ++ [])))
    (List.replicate 10 true) (captureAnswers v) [] rfl
  rwa [List.length_replicate, captureAnswers, List.length_map, List.length_range] at this

theorem witness_RdidReturnsAcceptedOrZero : LinesReady (ready 5 []) pins4 := ready_lines4 []

theorem witness_ShiftLoopbackRoundTrip :
    8#6 ≤ 32#6 ∧ LinesReady (ready 5 (loopbackAnswers 0xA5#32 8)) pins4
      ∧ answersFrom (ready 5 (loopbackAnswers 0xA5#32 8)) 0 (8#6).toNat = loopbackAnswers 0xA5#32 8 :=
  ⟨by decide, ready_lines4 _, by decide⟩

theorem witness_ShiftSplits :
    3 + 5 ≤ 32 ∧ 32 + 0 ≤ 32 ∧ 0 + 32 ≤ 32 ∧ LinesReady (ready 5 []) pins4 :=
  ⟨by decide, by decide, by decide, ready_lines4 []⟩

theorem witness_RstIsAShift :
    (ready 5 []).cfg.nReset + (ready 5 []).cfg.nIdle ≤ 32 ∧ LinesReady (ready 5 []) pins4 :=
  ⟨by decide, ready_lines4 []⟩

theorem witness_RdidIsItsTransportSequence : LinesReady (ready pinNone []) pins3 := ready_lines3 []

theorem witness_BypIsItsTransportSequence : LinesReady (ready 5 []) pins4 := ready_lines4 []

/-- Bindings, lines, trace, engine and flag of a state that a `BIND` reached. -/
theorem witness_steps :
    step (State.reset.withFetchWord 80 0x09000000000000000002) =
      .next { State.reset with bind := { State.reset.bind with tck := 2 } } := rfl

theorem witness_StepKeepsBindingsLegal :
    BindingsLegal (State.reset.withFetchWord 80 0x09000000000000000002) := by
  intro r
  cases r <;> exact .inl rfl

theorem witness_StepKeepsLinesLegal :
    LinesLegal (State.reset.withFetchWord 80 0x09000000000000000002) := ⟨by rfl, fun _ h => nomatch h⟩

theorem witness_StepKeepsLinesFollowTrace :
    LinesFollowTrace (State.reset.withFetchWord 80 0x09000000000000000002) := fun _ => rfl

theorem witness_StepKeepsEngineIdle :
    EngineIdle (State.reset.withFetchWord 80 0x09000000000000000002) := ⟨rfl, rfl⟩

theorem witness_StepKeepsErrMarksRefusals :
    ErrMarksRefusals (State.reset.withFetchWord 80 0x09000000000000000002) := by
  unfold ErrMarksRefusals
  decide

/-- A state reached by issuing `BIND TCK, 2` after reset. -/
theorem witness_ReachableStatesMeetTheInvariants :
    Reachable cfg0 { State.reset with bind := { State.reset.bind with tck := 2 } } :=
  .next _ _ (.inputs _ [.command 0x09000000000000000002#80] [] .reset) rfl

theorem witness_ReachableStatesNeverStop : cfg0.wf = true ∧ Reachable cfg0 State.reset :=
  ⟨by decide, .reset⟩

theorem witness_SamplesDoNotSteerEvents :
    Instr.cfg ≠ .byp ∧ ∃ t, exec .cfg (ready 5 []) = .next t := ⟨by decide, _, rfl⟩

theorem witness_OnlyBoundPinsAreTouched :
    (∃ t, exec .cfg (ready 5 []) = .next t) ∧ ∀ r : Role, bindingOf (ready 5 []).bind r ≠ 6 :=
  ⟨⟨_, rfl⟩, fun r => by cases r <;> decide⟩

theorem witness_ReleaseLeavesLinesPassive :
    LinesReady { ready 5 [] with lines := [(2, { dir := .out, outv := false }), (4, { dir := .inpu, outv := false })] }
        pins4
      ∧ linesWf [(2, { dir := .out, outv := false }), (4, { dir := .inpu, outv := false })] = true
      ∧ ∀ n ∈ drivenPins { ready 5 [] with lines := [(2, { dir := .out, outv := false }), (4, { dir := .inpu, outv := false })] },
          ∃ q ∈ pinList pins4, q.toNat = n := ⟨⟨by rfl, by rfl⟩, by decide, by decide⟩

theorem witness_EventCounts :
    LinesReady (ready 5 []) pins4 ∧ LinesReady (ready pinNone []) pins3 ∧ (ready 5 []).cfg.wf = true
      ∧ 32#6 ≤ 32#6 := ⟨ready_lines4 [], ready_lines3 [], by decide, by decide⟩

theorem witness_TestIdCodeEndsPassive :
    State.reset.cfg.wf = true ∧ StateInv State.reset ∧ allPassive State.reset
      ∧ isEligible State.reset.cfg 2 = true ∧ isEligible State.reset.cfg 3 = true
      ∧ isEligible State.reset.cfg 4 = true ∧ (2 : Pin) ≠ 3 ∧ (2 : Pin) ≠ 4 ∧ (3 : Pin) ≠ 4 := by
  refine ⟨by decide, ⟨fun r => ?_, ⟨by rfl, fun _ h => nomatch h⟩, fun _ => rfl, ⟨rfl, rfl⟩, ?_⟩, rfl,
    by decide, by decide, by decide, by decide, by decide, by decide⟩
  · cases r <;> exact .inl rfl
  · unfold ErrMarksRefusals
    decide

theorem witness_SearchEnumeratesAssignments : ([0, 1, 2, 3] : List Pin).Nodup := by decide

theorem witness_SearchTooWideFailsAtOnce :
    (candidatePins State.reset.cfg [2, 3, 4, 5, 6, 7]).length < 3
      ∧ (candidatePins State.reset.cfg []).length < 9 := by decide

theorem witness_RstReachesRunTestIdle : cfg0.wf = true := by decide

/-- A ready state with the reference target's answers to a list of cycles. -/
def wired (cs : List (Bool × Bool)) : State := ready 5 (replies device0 target0 cs)

theorem witness_RdidReadsTheReferenceTarget :
    (wired (rdidCycles cfg0)).cfg.wf = true ∧ LinesReady (wired (rdidCycles cfg0)) pins4
      ∧ (rdidCycles cfg0).map Prod.fst = (rdidCycles (wired (rdidCycles cfg0)).cfg).map Prod.fst
      ∧ targetAnswers device0 target0 (rdidCycles cfg0)
          (answersFrom (wired (rdidCycles cfg0)) 0 (rdidCycles cfg0).length) = true :=
  ⟨by decide, ready_lines4 _, rfl, by decide +kernel⟩

theorem witness_BypReturnsOneOnTheReferenceTarget :
    (wired (bypPreambleCycles cfg0 ++ streamCycles cfg0 33)).cfg.wf = true
      ∧ LinesReady (wired (bypPreambleCycles cfg0 ++ streamCycles cfg0 33)) pins4
      ∧ pins4.di ≠ none ∧ deviceOk device0 = true
      ∧ targetAnswers device0 target0 (bypPreambleCycles cfg0 ++ streamCycles cfg0 33)
          (answersFrom (wired (bypPreambleCycles cfg0 ++ streamCycles cfg0 33)) 0
            (rstCount cfg0 + 16 + 33)) = true :=
  ⟨by decide, ready_lines4 _, by decide, by decide, by decide +kernel⟩

end Sys2Proof.Tests
end

section
/-!
PROOF. The state after block reset, element by element (`10_state.md` R25).
-/

namespace Sys2Proof.Machine

/-- Every binding register holds `PIN_NONE` after reset (R11, R25). -/
@[simp] theorem bindingOf_resetWith (c : Config) (r : Role) :
    bindingOf (State.resetWith c).bind r = pinNone := by
  cases r with
  | tck => rfl
  | tms => rfl
  | tdo => rfl
  | tdi => rfl

@[simp] theorem lines_resetWith (c : Config) : (State.resetWith c).lines = [] := rfl

/-- Every pin is `IN` after reset: the reset pin space lists none, and an unlisted pin is idle (R13, R25). -/
@[simp] theorem dirAt_resetWith (c : Config) (p : Pin) : dirAt (State.resetWith c) p = .inp := by
  rw [dirAt, lines_resetWith, lineAt_nil, idleLine]

/-- Every latch is 0 after reset, for the same reason (R13, R25). -/
@[simp] theorem outvAt_resetWith (c : Config) (p : Pin) : outvAt (State.resetWith c) p = false := by
  rw [outvAt, lines_resetWith, lineAt_nil, idleLine]

@[simp] theorem trace_resetWith (c : Config) : (State.resetWith c).trace = [] := rfl

/-- The reset values of R25 do not depend on the configuration record. -/
theorem atResetValues_resetWith (c : Config) : AtResetValues (State.resetWith c) := by
  refine ⟨bindingOf_resetWith c, fun p => ⟨dirAt_resetWith c p, outvAt_resetWith c p⟩,
    ?res, ?busy, ?err, ?seqPos, trace_resetWith c⟩
  case res => rfl
  case busy => rfl
  case err => rfl
  case seqPos => rfl

/-- Settles O6: `State.reset` is the reset state of the example record. -/
theorem resetValues : Obligations.ResetValues :=
  ⟨atResetValues_resetWith, atResetValues_resetWith Config.sample⟩

end Sys2Proof.Machine
end

section
/-!
PROOF. The decoder, one lemma for each opcode and each reason of refusal (`30_encoding.md` R61 to R68).
-/

namespace Sys2Proof

/-! ### The format of each opcode -/

theorem decode_of_opcField_wrb {w : Command} (h : opcField w = 0x01#8) : decode w = decodeFormatB w := by
  simp [decode, h]

theorem decode_of_opcField_shift {w : Command} (h : opcField w = 0x02#8) : decode w = decodeFormatS w := by
  simp [decode, h]

theorem decode_of_opcField_acc {w : Command} (h : opcField w = 0x08#8) : decode w = decodeFormatC w := by
  simp [decode, h]

theorem decode_of_opcField_bind {w : Command} (h : opcField w = 0x09#8) : decode w = decodeFormatP w := by
  simp [decode, h]

/-- The opcodes of the five commands without operand (R61, R66). -/
theorem decode_of_opcField_noOperand {w : Command} (hlo : 0x03#8 ≤ opcField w) (hhi : opcField w ≤ 0x07#8) :
    ∃ i ∈ [Instr.rst, .cfg, .rel, .rdid, .byp], decode w = decodeFormatZ i w := by
  have opcodes : opcField w = 0x03#8 ∨ opcField w = 0x04#8 ∨ opcField w = 0x05#8 ∨ opcField w = 0x06#8
      ∨ opcField w = 0x07#8 := by bv_omega
  rcases opcodes with h | h | h | h | h
  · exact ⟨.rst, by simp, by simp [decode, h]⟩
  · exact ⟨.cfg, by simp, by simp [decode, h]⟩
  · exact ⟨.rel, by simp, by simp [decode, h]⟩
  · exact ⟨.rdid, by simp, by simp [decode, h]⟩
  · exact ⟨.byp, by simp, by simp [decode, h]⟩

/-! ### The words the decoder rejects -/

/-- R68 (a): none of the nine assigned opcodes. -/
theorem decode_reservedOpcode {w : Command} (h : opcField w = 0x00#8 ∨ 0x0A#8 ≤ opcField w) :
    decode w = .error .reservedOpcode := by
  have unassigned (opc : BitVec 8) (hlo : 0x01#8 ≤ opc) (hhi : opc ≤ 0x09#8) : opcField w ≠ opc := by
    bv_omega
  simp [decode, unassigned]

/-- R68 (b): a payload bit that the format of an assigned opcode marks reserved is 1. -/
theorem decode_reservedField {w : Command}
    (h : opcField w = 0x01#8 ∧ w.extractLsb' 2 70 ≠ 0#70
      ∨ opcField w = 0x02#8 ∧ w.extractLsb' 64 2 ≠ 0#2
      ∨ 0x03#8 ≤ opcField w ∧ opcField w ≤ 0x07#8 ∧ w.extractLsb' 0 72 ≠ 0#72
      ∨ opcField w = 0x08#8 ∧ w.extractLsb' 32 40 ≠ 0#40
      ∨ opcField w = 0x09#8 ∧ w.extractLsb' 10 62 ≠ 0#62) :
    decode w = .error .reservedField := by
  rcases h with ⟨hop, hres⟩ | ⟨hop, hres⟩ | ⟨hlo, hhi, hres⟩ | ⟨hop, hres⟩ | ⟨hop, hres⟩
  · rw [decode_of_opcField_wrb hop, decodeFormatB, if_pos hres]
  · rw [decode_of_opcField_shift hop, decodeFormatS, if_pos hres]
  · obtain ⟨i, -, hdec⟩ := decode_of_opcField_noOperand hlo hhi
    rw [hdec, decodeFormatZ, if_pos hres]
  · rw [decode_of_opcField_acc hop, decodeFormatC, if_pos hres]
  · rw [decode_of_opcField_bind hop, decodeFormatP, if_pos hres]

/-- R68 (c): `SHIFT` of more than 32 bits. -/
theorem decode_widthRange {w : Command} (hop : opcField w = 0x02#8) (hres : w.extractLsb' 64 2 = 0#2)
    (hwidth : 33#6 ≤ w.extractLsb' 66 6) : decode w = .error .widthRange := by
  have wide : ¬ w.extractLsb' 66 6 ≤ 32#6 := by bv_omega
  rw [decode_of_opcField_shift hop, decodeFormatS, if_neg (not_not_intro hres), if_pos wide]

theorem roleOfField_eq_tdi_iff (v : BitVec 2) : roleOfField v = .tdi ↔ v = 3#2 := by
  revert v
  decide

/-- The part of R68 (d) that needs no configuration: `PIN_NONE` for a role other than TDI. -/
theorem decode_pinRange {w : Command} (hop : opcField w = 0x09#8) (hres : w.extractLsb' 10 62 = 0#62)
    (hpin : w.extractLsb' 0 8 = pinNone) (hrole : w.extractLsb' 8 2 ≠ 3#2) :
    decode w = .error .pinRange := by
  rw [decode_of_opcField_bind hop, decodeFormatP, if_neg (not_not_intro hres),
    if_pos ⟨hpin, mt (roleOfField_eq_tdi_iff _).mp hrole⟩]

/-- A `BIND` word of any pin but `PIN_NONE` decodes, whether the pin is eligible or not (log 10). -/
theorem decode_bind_of_ne_pinNone {w : Command} (hop : opcField w = 0x09#8)
    (hres : w.extractLsb' 10 62 = 0#62) (hpin : w.extractLsb' 0 8 ≠ pinNone) :
    decode w = .ok (.bind (roleOfField (w.extractLsb' 8 2)) (w.extractLsb' 0 8)) := by
  rw [decode_of_opcField_bind hop, decodeFormatP, if_neg (not_not_intro hres), if_neg (hpin ·.1)]

end Sys2Proof
end

section
/-!
PROOF. The step that accepts a command word, and the refusal of the words R68 lists
(`30_encoding.md` R68, `60_exceptions.md` R193).
-/

namespace Sys2Proof.Machine

/-- With `BUSY` 0 the word on the port is accepted (`10_state.md` R24). -/
theorem fetch_command {s : State} {w : Command} {rest : List HostInput} (hbusy : s.busy = false)
    (hhost : s.host = .command w :: rest) : fetch s = .command w { s with host := rest } := by
  simp [fetch, hhost, hbusy]

/-- An accepted word that does not decode is refused with the decoder's reason (R193). -/
theorem step_of_decode_error {s : State} {w : Command} {rest : List HostInput} {r : RefuseReason}
    (hwf : s.cfg.wf = true) (hbusy : s.busy = false) (hhost : s.host = .command w :: rest)
    (hdec : decode w = .error r) : step s = .next (refusedState r { s with host := rest }) := by
  simp [step, hwf, fetch_command hbusy hhost, hdec, refuse_eq]

/-- An accepted word that decodes runs its command (R24). -/
theorem step_of_decode_ok {s : State} {w : Command} {rest : List HostInput} {i : Instr}
    (hwf : s.cfg.wf = true) (hbusy : s.busy = false) (hhost : s.host = .command w :: rest)
    (hdec : decode w = .ok i) : step s = exec i { s with host := rest } := by
  simp [step, hwf, fetch_command hbusy hhost, hdec]

/-- `BIND` refuses a pin that is not eligible, `PIN_NONE` for TDI excepted (`40_transport.md` R91). -/
theorem execBind_refused {role : Role} {pin : Pin} {s : State} (helig : isEligible s.cfg pin = false)
    (hnone : ¬ (pin = pinNone ∧ role = .tdi)) :
    execBind role pin s = .next (refusedState .pinRange s) := by
  have fails : ¬ (isEligible s.cfg pin || (decide (pin = pinNone) && decide (role = .tdi))) = true := by
    simpa [helig] using hnone
  rw [execBind, if_neg fails, refuse_eq]

/-- R68 (d): the decoder refuses `PIN_NONE`, the meaning of `BIND` a pin outside `ELIGIBLE` (log 10). -/
theorem step_bind_pinRange {s : State} {w : Command} {rest : List HostInput} (hwf : s.cfg.wf = true)
    (hbusy : s.busy = false) (hhost : s.host = .command w :: rest) (hop : opcField w = 0x09#8)
    (hres : w.extractLsb' 10 62 = 0#62)
    (hpin : isEligible s.cfg (w.extractLsb' 0 8) = false ∧ w.extractLsb' 0 8 ≠ pinNone
      ∨ w.extractLsb' 0 8 = pinNone ∧ w.extractLsb' 8 2 ≠ 3#2) :
    step s = .next (refusedState .pinRange { s with host := rest }) := by
  rcases hpin with ⟨helig, hne⟩ | ⟨hnone, hrole⟩
  · calc step s = execBind _ _ { s with host := rest } :=
          step_of_decode_ok hwf hbusy hhost (decode_bind_of_ne_pinNone hop hres hne)
      _ = .next (refusedState .pinRange { s with host := rest }) := execBind_refused helig (hne ·.1)
  · exact step_of_decode_error hwf hbusy hhost (decode_pinRange hop hres hnone hrole)

/-- Settles O5, one clause for each class of R68. -/
theorem reservedWordsAreRefused : Obligations.ReservedWordsAreRefused := by
  intro s w rest hwf hbusy hhost
  refine ⟨fun hop => ?opcode, fun hres => ?field, fun ⟨hop, hres, hwidth⟩ => ?width,
    fun ⟨hop, hres, hpin⟩ => ?pin⟩
  case opcode => exact step_of_decode_error hwf hbusy hhost (decode_reservedOpcode hop)
  case field => exact step_of_decode_error hwf hbusy hhost (decode_reservedField hres)
  case width => exact step_of_decode_error hwf hbusy hhost (decode_widthRange hop hres hwidth)
  case pin => exact step_bind_pinRange hwf hbusy hhost hop hres hpin

end Sys2Proof.Machine
end

section
/-!
PROOF. `LineCheck` and the commands that make it (`40_transport.md` R90).
-/

namespace Sys2Proof.Machine

/-! ### The outcomes of LineCheck -/

/-- TCK, TMS or TDO has no pin (`40_transport.md` R90, RoleUnbound). -/
def RoleMissing (b : Bindings) : Prop := b.tck = pinNone ∨ b.tms = pinNone ∨ b.tdo = pinNone

/-- Two roles hold one pin (R90, PinAlias). -/
def RolesAlias (b : Bindings) : Prop :=
  ∃ q r : Role, q ≠ r ∧ bindingOf b q = bindingOf b r ∧ bindingOf b q ≠ pinNone

/-- The four roles, in the order in which `boundPins` lists their bindings. -/
def allRoles : List Role := [.tck, .tms, .tdo, .tdi]

theorem mem_allRoles (r : Role) : r ∈ allRoles := by
  cases r <;> decide

theorem boundPins_eq_map (b : Bindings) :
    boundPins b = (allRoles.map (bindingOf b)).filter (fun p => p ≠ pinNone) := rfl

/-- The bound pins repeat exactly when two roles hold one of them. -/
theorem boundPins_nodup_iff (b : Bindings) : (boundPins b).Nodup ↔ ¬ RolesAlias b := by
  have pairs : (boundPins b).Nodup ↔ allRoles.Pairwise (fun q r =>
      bindingOf b q ≠ pinNone → bindingOf b r ≠ pinNone → bindingOf b q ≠ bindingOf b r) := by
    simp [boundPins_eq_map, List.Nodup, List.pairwise_filter, List.pairwise_map]
  rw [pairs]
  constructor
  · rintro hpw ⟨q, r, hne, heq, hq⟩
    have symmetric : Std.Symm fun q r =>
        bindingOf b q ≠ pinNone → bindingOf b r ≠ pinNone → bindingOf b q ≠ bindingOf b r :=
      ⟨fun _ _ apart hr hq => (apart hq hr).symm⟩
    exact hpw.forall (mem_allRoles q) (mem_allRoles r) hne hq (heq ▸ hq) heq
  · intro halias
    have rolesNodup : allRoles.Nodup := by decide
    exact rolesNodup.pairwise_of_forall_ne fun q _ r _ hne hq _ heq => halias ⟨q, r, hne, heq, hq⟩

/-- The three outcomes of `LineCheck`, in the order of R90. -/
theorem lineCheck_cases (b : Bindings) :
    (RoleMissing b ∧ lineCheck b = .error .roleUnbound)
      ∨ (¬ RoleMissing b ∧ RolesAlias b ∧ lineCheck b = .error .pinAlias)
      ∨ (¬ RoleMissing b ∧ ¬ RolesAlias b ∧ lineCheck b = .ok (pinsOf b)) := by
  by_cases hmiss : RoleMissing b
  · exact .inl ⟨hmiss, if_pos hmiss⟩
  by_cases halias : RolesAlias b
  · have rep : ¬ (boundPins b).Nodup := fun h => (boundPins_nodup_iff b).mp h halias
    exact .inr (.inl ⟨hmiss, halias, (if_neg hmiss).trans (if_pos rep)⟩)
  · have nodup : ¬ ¬ (boundPins b).Nodup := not_not_intro ((boundPins_nodup_iff b).mpr halias)
    exact .inr (.inr ⟨hmiss, halias, (if_neg hmiss).trans (if_neg nodup)⟩)

theorem lineCheck_roleUnbound_iff (b : Bindings) :
    lineCheck b = .error .roleUnbound ↔ RoleMissing b := by
  rcases lineCheck_cases b with ⟨hmiss, h⟩ | ⟨hmiss, -, h⟩ | ⟨hmiss, -, h⟩ <;> simp [h, hmiss]

theorem lineCheck_pinAlias_iff (b : Bindings) :
    lineCheck b = .error .pinAlias ↔ ¬ RoleMissing b ∧ RolesAlias b := by
  rcases lineCheck_cases b with ⟨hmiss, h⟩ | ⟨hmiss, halias, h⟩ | ⟨hmiss, halias, h⟩ <;>
    simp [*]

theorem lineCheck_ok_iff_pinsOf (b : Bindings) (p : Pins) :
    lineCheck b = .ok p ↔ ¬ RoleMissing b ∧ ¬ RolesAlias b ∧ p = pinsOf b := by
  rcases lineCheck_cases b with ⟨hmiss, h⟩ | ⟨hmiss, halias, h⟩ | ⟨hmiss, halias, h⟩ <;>
    simp [*, eq_comm]

/-! ### The commands that make LineCheck -/

/-- `SHIFT` of up to 32 bits is a line-touching command (R97). -/
theorem execShift_of_le {width : BitVec 6} (hwidth : width ≤ 32#6) (tmsWord tdiWord : Word) (s : State) :
    execShift tmsWord tdiWord width s =
      lineCommand (fun p s =>
        dropWork (setRes (shiftBody p tmsWord tdiWord width.toNat s).accw
          (shiftBody p tmsWord tdiWord width.toNat s))) s :=
  if_neg (not_not_intro hwidth)

/-- Each of the seven line-touching commands is a body behind `LineCheck`. -/
theorem exec_lineTouching {i : Instr} (hline : lineTouching i = true) (hwf : i.wellFormed = true) :
    ∃ body : Pins → State → State, ∀ s, exec i s = lineCommand body s := by
  cases i with
  | wrb tms tdi => exact ⟨_, fun _ => by rw [exec, execWrb]⟩
  | shift tmsWord tdiWord width => exact ⟨_, execShift_of_le (of_decide_eq_true hwf) tmsWord tdiWord⟩
  | rst => exact ⟨_, fun _ => by rw [exec, execRst]⟩
  | cfg => exact ⟨_, fun _ => by rw [exec, execCfg]⟩
  | rel => exact ⟨_, fun _ => by rw [exec, execRel]⟩
  | rdid => exact ⟨_, fun _ => by rw [exec, execRdid]⟩
  | byp => exact ⟨_, fun _ => by rw [exec, execByp]⟩
  | acc code => cases hline
  | bind role pin => cases hline

/-- A line-touching command that fails `LineCheck` is refused with its reason before anything else. -/
theorem exec_refused_of_lineCheck {i : Instr} {s : State} {r : RefuseReason}
    (hline : lineTouching i = true) (hwf : i.wellFormed = true) (hcheck : lineCheck s.bind = .error r) :
    exec i s = .next (refusedState r s) := by
  obtain ⟨body, hexec⟩ := exec_lineTouching hline hwf
  rw [hexec, lineCommand_refused hcheck]

/-- Settles O12, from the three outcomes of `LineCheck` and the shape of the seven commands. -/
theorem lineCheckRule : Obligations.LineCheckRule :=
  ⟨fun b => ⟨lineCheck_roleUnbound_iff b, lineCheck_pinAlias_iff b, lineCheck_ok_iff_pinsOf b⟩,
    fun _ _ _ => exec_refused_of_lineCheck⟩

end Sys2Proof.Machine
end

section
/-!
PROOF. The commands that run cycles and nothing else: `WRB`, `SHIFT` and `RST` (`40_transport.md` R96 to
R98, R100).
-/

namespace Sys2Proof.Machine

/-! ### What depends on the lines, or on the environment, only -/

@[simp] theorem answerAt_accepted (s : State) (k : Nat) : answerAt (accepted s) k = answerAt s k := rfl

@[simp] theorem answersFrom_accepted (s : State) (k n : Nat) :
    answersFrom (accepted s) k n = answersFrom s k n := rfl

/-- The latches a command leaves are a matter of the lines before and after it. -/
theorem CycleLines.of_lines {p : Pins} {tms tdi : Bool} {s s' t t' : State}
    (h : CycleLines p tms tdi s t) (hs : s'.lines = s.lines) (ht : t'.lines = t.lines) :
    CycleLines p tms tdi s' t' := by
  simpa only [CycleLines, OtherLinesSame, dirAt, outvAt, hs, ht] using h

@[simp] theorem runCycles_res (p : Pins) (cs : List (Bool × Bool)) (s : State) :
    (runCycles p cs s).res = s.res := by rw [runCycles_frame]

/-! ### A complete command that ran cycles -/

/-- `t` is `s` after a complete command whose only line actions were the cycles `cs` on `p`: the lines they
leave, their events, and the frame. -/
structure RanCycles (p : Pins) (cs : List (Bool × Bool)) (s t : State) : Prop where
  lines : t.lines = (runCycles p cs (accepted s)).lines
  trace : t.trace = s.trace ++ cyclesEvents s.cfg p cs (answersFrom s 0 cs.length)
  frame : RunFrame cs.length s t

namespace RanCycles

/-- A body that is a run of cycles but for `RES` and the working registers. -/
theorem of_body {p : Pins} {cs : List (Bool × Bool)} {s v : State}
    (hframe : WorkFrame cs.length (accepted s) v) (hlines : v.lines = (runCycles p cs (accepted s)).lines)
    (htrace : v.trace = (runCycles p cs (accepted s)).trace) :
    RanCycles p cs s (completed (dropWork v)) where
  lines := hlines
  trace := by
    rw [completed_trace, dropWork_trace, htrace, runCycles_trace, accepted_trace, accepted_cfg,
      answersFrom_accepted]
  frame := by
    have whole := (WorkFrame.accepted s).trans hframe
    rw [Nat.zero_add] at whole
    exact whole.complete

/-- The latches are those of the last cycle (R100). -/
theorem cycleLines {p : Pins} {cs : List (Bool × Bool)} {c : Bool × Bool} {s t : State}
    (h : RanCycles p (cs ++ [c]) s t) (hp : PinsDistinct p) : CycleLines p c.1 c.2 s t :=
  (runCycles_lines hp cs c (accepted s)).of_lines (accepted_lines s).symm h.lines

end RanCycles

/-! ### WRB -/

/-- `WRB` runs one cycle and leaves its sample in `RES`. -/
theorem exec_wrb_ready {s : State} {p : Pins} (h : LinesReady s p) (tms tdi : Bool) :
    exec (.wrb tms tdi) s =
      .next (completed (dropWork (setRes (zextBit (answerAt s 0)) (cycle p tms tdi (accepted s))))) := by
  simp only [exec, execWrb, lineCommand_ready h, cycle_smp, answerAt_accepted]

theorem zextBit_eq_ite (b : Bool) : zextBit b = if b = true then 1#32 else 0#32 := by
  cases b <;> rfl

/-- Settles O22: `WRB` is a run of one cycle. -/
theorem wrbRule : Obligations.WrbRule := by
  intro s tms tdi
  refine ⟨fun r => exec_refused_of_lineCheck rfl rfl,
    fun p hready => ⟨_, exec_wrb_ready hready tms tdi, ?_⟩⟩
  have ran : RanCycles p [(tms, tdi)] s
      (completed (dropWork (setRes (zextBit (answerAt s 0)) (cycle p tms tdi (accepted s))))) :=
    .of_body ((WorkFrame.cycle p tms tdi (accepted s)).trans (.setRes _ _)) rfl rfl
  have events := ran.trace
  rw [List.length_singleton, answersFrom_succ, cyclesEvents_cons] at events
  refine ⟨zextBit_eq_ite _, by simpa using events, ?_, ran.frame⟩
  exact ran.cycleLines (cs := []) (lineCheck_distinct hready.1)

/-! ### SHIFT -/

theorem shiftBody_lines (p : Pins) (t d : Word) (w : Nat) (s : State) :
    (shiftBody p t d w s).lines = (runCycles p (wordCycles t d w) s).lines := by rw [shiftBody_eq]

theorem shiftBody_trace (p : Pins) (t d : Word) (w : Nat) (s : State) :
    (shiftBody p t d w s).trace = (runCycles p (wordCycles t d w) s).trace := by
  rw [shiftBody_eq]
  rfl

/-- The state after a `SHIFT` of `w` bits. -/
def afterShift (p : Pins) (tmsWord tdiWord : Word) (w : Nat) (s : State) : State :=
  completed (dropWork (setRes (shiftBody p tmsWord tdiWord w (accepted s)).accw
    (shiftBody p tmsWord tdiWord w (accepted s))))

theorem exec_shift_ready {s : State} {p : Pins} (h : LinesReady s p) {width : BitVec 6}
    (hwidth : width ≤ 32#6) (tmsWord tdiWord : Word) :
    exec (.shift tmsWord tdiWord width) s = .next (afterShift p tmsWord tdiWord width.toNat s) := by
  rw [exec, execShift_of_le hwidth, lineCommand_ready h, afterShift]

/-- `SHIFT` of more than 32 bits, which no decoded word is, is refused before `LineCheck` (R97). -/
theorem exec_shift_tooWide {width : BitVec 6} (hwidth : 33#6 ≤ width) (tmsWord tdiWord : Word) (s : State) :
    exec (.shift tmsWord tdiWord width) s = .next (refusedState .widthRange s) := by
  have wide : ¬ width ≤ 32#6 := by bv_omega
  rw [exec, execShift, if_pos wide, refuse_eq]

/-- The result of `SHIFT`: sample `i` in bit `i`, zeros above. -/
theorem afterShift_res (p : Pins) (tmsWord tdiWord : Word) (w : Nat) (s : State) {i : Nat} (hi : i < 32) :
    (afterShift p tmsWord tdiWord w s).res.getLsbD i = (decide (i < w) && answerAt s i) :=
  shiftBody_accw p tmsWord tdiWord w (accepted s) i hi

theorem afterShift_ran (p : Pins) (tmsWord tdiWord : Word) (w : Nat) (s : State) :
    RanCycles p (wordCycles tmsWord tdiWord w) s (afterShift p tmsWord tdiWord w s) := by
  refine .of_body ?_ (shiftBody_lines p tmsWord tdiWord w _) (shiftBody_trace p tmsWord tdiWord w _)
  rw [wordCycles_length]
  exact (WorkFrame.shiftBody p tmsWord tdiWord w _).trans (.setRes _ _)

/-- Settles O23: `SHIFT` is the run of the cycles of its two words. -/
theorem shiftRule : Obligations.ShiftRule := by
  intro s tmsWord tdiWord width
  refine ⟨fun hwide => exec_shift_tooWide hwide tmsWord tdiWord s,
    fun hwidth => ⟨fun r => ?refused, ?ready⟩⟩
  case refused => exact exec_refused_of_lineCheck rfl (decide_eq_true hwidth)
  case ready =>
    intro p hready
    have ran := afterShift_ran p tmsWord tdiWord width.toNat s
    have events := ran.trace
    have frame := ran.frame
    rw [wordCycles_length] at events frame
    refine ⟨_, exec_shift_ready hready hwidth tmsWord tdiWord, fun i => afterShift_res p tmsWord tdiWord _ s,
      events, ?zero, ?last, frame⟩
    case zero =>
      rintro rfl
      exact ran.lines
    case last =>
      intro n hn
      rw [hn, wordCycles_succ] at ran
      rw [hn]
      exact ran.cycleLines (lineCheck_distinct hready.1)

/-! ### RST -/

/-- A legal configuration ends `RST` with at least one TMS-low cycle (`00_scope.md` R7, R8). -/
theorem nIdle_pos_of_wf {c : Config} (h : c.wf = true) : 1 ≤ c.nIdle := by
  simp only [Config.wf, Bool.and_eq_true, decide_eq_true_eq] at h
  obtain ⟨⟨-, hidle⟩, -⟩ := h
  exact hidle

/-- The last cycle of `RST` has TMS and TDI low (R98). -/
theorem rstCycles_eq_append {c : Config} (h : 1 ≤ c.nIdle) :
    rstCycles c =
      (List.replicate c.nReset (true, false) ++ List.replicate (c.nIdle - 1) (false, false))
        ++ [(false, false)] := by
  obtain ⟨n, hn⟩ := Nat.exists_eq_add_of_le' h
  rw [rstCycles, hn, List.replicate_succ', List.append_assoc, Nat.add_sub_cancel]

theorem exec_rst_ready {s : State} {p : Pins} (h : LinesReady s p) :
    exec .rst s = .next (completed (dropWork (runCycles p (rstCycles s.cfg) (accepted s)))) := by
  rw [exec, execRst, lineCommand_ready h, rstBody, accepted_cfg]

/-- Settles O24: the legal configuration gives the TMS-low cycle that decides the latches. -/
theorem rstRule : Obligations.RstRule := by
  intro s hwf
  refine ⟨fun r => exec_refused_of_lineCheck rfl rfl, fun p hready => ⟨_, exec_rst_ready hready, ?_⟩⟩
  have ran : RanCycles p (rstCycles s.cfg) s
      (completed (dropWork (runCycles p (rstCycles s.cfg) (accepted s)))) :=
    .of_body (WorkFrame.runCycles p _ _) rfl rfl
  have events := ran.trace
  have frame := ran.frame
  rw [rstCycles_length] at events frame
  refine ⟨by simp, events, ?lines, frame⟩
  rw [rstCycles_eq_append (nIdle_pos_of_wf hwf)] at ran ⊢
  exact ran.cycleLines (lineCheck_distinct hready.1)

end Sys2Proof.Machine
end

section
/-!
PROOF. The operation sequencer: `RDID` and `BYP` (`41_protocol.md` R120 to R126). Each is the body of `CFG`
and then one run of cycles; `BYP` decides its length by the first match of the reconstruction register.
-/

namespace Sys2Proof.Machine

/-! ### A complete operation -/

/-- `v` is `u` but for `RES` and the working registers that a run of cycles does not write. -/
def SameButRegisters (u v : State) : Prop :=
  v = { u with res := v.res, accw := v.accw, reg := v.reg, cnt := v.cnt }

namespace SameButRegisters

variable {u v : State} (h : SameButRegisters u v)
include h

theorem lines_eq : v.lines = u.lines := by rw [h]

theorem trace_eq : v.trace = u.trace := by
  rw [h]
  rfl

theorem workFrame {n : Nat} {s : State} (k : WorkFrame n s u) : WorkFrame n s v := by
  rw [h]
  exact ⟨k.cfg, k.bind, k.err, k.reasons, k.host, k.draws, k.answers, k.reads⟩

end SameButRegisters

/-- `t` is `s` after a complete operation on `p`, which is the body of `CFG` and then the cycles `cs` (R120):
the lines they leave, their events, and the frame. -/
structure RanOperation (p : Pins) (cs : List (Bool × Bool)) (s t : State) : Prop where
  lines : t.lines = (runCycles p cs (cfgBody p (accepted s))).lines
  trace : t.trace = s.trace ++ cfgEvents p ++ cyclesEvents s.cfg p cs (answersFrom s 0 cs.length)
  frame : RunFrame cs.length s t

theorem answersFrom_cfgBody (p : Pins) (s : State) (k n : Nat) :
    answersFrom (cfgBody p s) k n = answersFrom s k n := by
  simp only [answersFrom, answerAt_cfgBody]

namespace RanOperation

theorem of_body {p : Pins} {cs : List (Bool × Bool)} {s v : State}
    (h : SameButRegisters (runCycles p cs (cfgBody p (accepted s))) v) :
    RanOperation p cs s (completed (dropWork v)) where
  lines := h.lines_eq
  trace := by
    rw [completed_trace, dropWork_trace, h.trace_eq, runCycles_trace, cfgBody_trace, cfgBody_cfg,
      answersFrom_cfgBody, accepted_trace, accepted_cfg, answersFrom_accepted]
  frame := by
    have start : WorkFrame 0 s (cfgBody p (accepted s)) := (WorkFrame.accepted s).trans (.cfgBody p _)
    have whole := start.trans (.runCycles p cs _)
    rw [Nat.zero_add] at whole
    exact (h.workFrame whole).complete

/-- The lines are those of `CFG` with the latches of the last cycle (R126). -/
theorem operationLines {p : Pins} {cs : List (Bool × Bool)} {tdi : Bool} {s t : State}
    (h : RanOperation p (cs ++ [(false, tdi)]) s t) (hp : PinsDistinct p) : OperationLines p tdi s t := by
  have last : CycleLines p false tdi (cfgBody p (accepted s)) t :=
    (runCycles_lines hp cs (false, tdi) (cfgBody p (accepted s))).of_lines rfl h.lines
  have fromAccepted : OperationLines p tdi (accepted s) t := operationLines_of_cycleLines hp last
  exact fromAccepted

end RanOperation

/-! ### RDID -/

/-- The state of `RDID` when its capture is complete, the captured word in `ACCW` (R121). -/
def captureState (p : Pins) (s : State) : State :=
  shiftBody p 0#32 0#32 32 (runCycles p (rstCycles s.cfg ++ seqIdleToShiftDr) (cfgBody p s))

theorem rdidBody_eq (p : Pins) (s : State) :
    rdidBody p s = setRes (acceptedOrZero (captureState p s).accw) (captureState p s) := by
  simp only [rdidBody, captureState, rstBody, cfgBody_cfg, runCycles_append]

/-- The capture is the run of the cycles of `RDID` but for `ACCW`. -/
theorem captureState_eq (p : Pins) (s : State) :
    captureState p s =
      { runCycles p (rdidCycles s.cfg) (cfgBody p s) with accw := (captureState p s).accw } := by
  rw [rdidCycles, runCycles_append, ← captureCycles_eq]
  exact shiftBody_eq _ _ _ _ _

/-- Bit `i` of the captured word is the sample of cycle `N_RESET + N_IDLE + 3 + i`. -/
theorem captureState_accw (p : Pins) (s : State) {i : Nat} (hi : i < 32) :
    (captureState p s).accw.getLsbD i = answerAt s (rstCount s.cfg + 3 + i) := by
  rw [captureState, shiftBody_accw _ _ _ _ _ _ hi, decide_eq_true hi, Bool.true_and, answerAt_runCycles,
    answerAt_cfgBody, List.length_append, rstCycles_length, seqIdleToShiftDr_eq]
  rfl

/-- After its body only the registers differ from the run of the cycles of `RDID`. -/
theorem sameButRegisters_rdidBody (p : Pins) (s : State) :
    SameButRegisters (runCycles p (rdidCycles s.cfg) (cfgBody p s)) (rdidBody p s) := by
  rw [SameButRegisters, rdidBody_eq, captureState_eq]
  rfl

/-- `RDID` behind a successful `LineCheck`: the word it captures and its cycles. -/
theorem exec_rdid_ready {s : State} {p : Pins} (h : LinesReady s p) :
    ∃ t v, exec .rdid s = .next t ∧ (∀ i, i < 32 → v.getLsbD i = answerAt s (rstCount s.cfg + 3 + i))
      ∧ t.res = acceptedOrZero v ∧ RanOperation p (rdidCycles s.cfg) s t := by
  refine ⟨completed (dropWork (rdidBody p (accepted s))), (captureState p (accepted s)).accw, ?_,
    fun i hi => captureState_accw p (accepted s) hi, ?_,
    .of_body (sameButRegisters_rdidBody p (accepted s))⟩
  · rw [exec, execRdid, lineCommand_ready h]
  · rw [rdidBody_eq]
    rfl

@[simp] theorem rdidCycles_length (c : Config) : (rdidCycles c).length = rstCount c + 35 := by
  simp [rdidCycles, seqIdleToShiftDr_eq]

/-- The cycles of `RDID` in the order R121 writes them. -/
theorem rdidCycles_eq (c : Config) :
    rdidCycles c = List.replicate c.nReset (true, false) ++ List.replicate c.nIdle (false, false)
      ++ [(true, false), (false, false), (false, false)] ++ List.replicate 32 (false, false) := by
  rw [rdidCycles, rstCycles, seqIdleToShiftDr_eq]

/-- The last cycle of `RDID` has TMS and TDI low. -/
theorem rdidCycles_eq_append (c : Config) :
    rdidCycles c =
      (rstCycles c ++ seqIdleToShiftDr ++ List.replicate 31 (false, false)) ++ [(false, false)] := by
  rw [rdidCycles, List.replicate_succ', List.append_assoc _ (List.replicate 31 _)]

/-- Settles O25: `RDID` is the body of `CFG` and the run of its cycles. -/
theorem rdidRule : Obligations.RdidRule := by
  intro s
  refine ⟨fun r => exec_refused_of_lineCheck rfl rfl, fun p hready => ?_⟩
  obtain ⟨t, v, hexec, hbits, hres, ran⟩ := exec_rdid_ready hready
  have events := ran.trace
  have frame := ran.frame
  rw [rdidCycles_length] at events frame
  rw [rdidCycles_eq] at events
  rw [rdidCycles_eq_append] at ran
  exact ⟨t, v, hexec, hbits, hres, events, ran.operationLines (lineCheck_distinct hready.1), frame⟩

/-! ### The reconstruction register of BYP -/

/-- After `j` streaming cycles the newest sample stands in bit 31, and the places no sample has reached hold
the 0 the register started with (R123). -/
theorem regAfter_getLsbD (x : Nat → Bool) (j : Nat) {i : Nat} (hi : i < 32) :
    (regAfter x j).getLsbD i = (decide (32 ≤ i + j) && x (i + j - 32)) := by
  induction j generalizing i with
  | zero => simp [regAfter, hi.not_ge]
  | succ j ih =>
    by_cases htop : i = 31
    · subst htop
      cases hx : x j <;> simp [regAfter, hx, Nat.add_comm 31]
    · have below : i + 1 < 32 := by omega
      have shifted : i < 31 := by omega
      have next : 1 + i + j = i + (j + 1) := by omega
      simp [regAfter, hi, shifted, ih (i := 1 + i) (by omega), next]

/-- A pattern with bit 0 set cannot match before 32 streaming cycles (R124): no sample has reached bit 0. -/
theorem regAfter_ne_of_lt {pattern : Word} (hbit : pattern.getLsbD 0 = true) (x : Nat → Bool) {j : Nat}
    (hj : j < 32) : regAfter x j ≠ pattern := by
  rintro rfl
  have unreached : ¬ 32 ≤ 0 + j := by omega
  rw [regAfter_getLsbD x j (by decide), decide_eq_false unreached] at hbit
  cases hbit

/-- A legal configuration has bit 0 of the pattern set (`00_scope.md` R7, R8). -/
theorem pattern_bit_zero_of_wf {c : Config} (h : c.wf = true) : c.pattern.getLsbD 0 = true := by
  simp only [Config.wf, Config.patternOk, Bool.and_eq_true] at h
  obtain ⟨-, hbit, -⟩ := h
  exact hbit

/-! ### The end of the stream -/

/-- The stream of `BYP` with the samples `x` ends after `n` cycles with the result `v`: at the first match
with the latency, or without one after the whole budget with 0 (R123, R124). -/
structure StreamEnds (pattern : Word) (x : Nat → Bool) (n : Nat) (v : Word) : Prop where
  pos : 1 ≤ n
  budget : n ≤ 1024
  noEarlierMatch : ∀ j, 1 ≤ j → j < n → regAfter x j ≠ pattern
  result : regAfter x n = pattern ∧ v = BitVec.ofNat 32 (n - 32)
    ∨ regAfter x n ≠ pattern ∧ n = 1024 ∧ v = 0#32

theorem StreamEnds.ge_of_bit_zero {pattern : Word} {x : Nat → Bool} {n : Nat} {v : Word}
    (h : StreamEnds pattern x n v) (hbit : pattern.getLsbD 0 = true) : 32 ≤ n := by
  rcases h.result with ⟨hmatch, -⟩ | ⟨-, hn, -⟩
  · by_contra hlt
    exact regAfter_ne_of_lt hbit x (by omega) hmatch
  · omega

/-- `CNT` holds every cycle count of the budget, so the latency is that of the count itself. -/
theorem latency_ofNat {c : Nat} (h : c ≤ 1024) :
    latency (BitVec.ofNat 11 c) = BitVec.ofNat 32 (c - 32) := by
  have fits : c < 2 ^ 11 := by omega
  rw [latency, BitVec.toNat_ofNat, Nat.mod_eq_of_lt fits]

/-- The whole streaming loop of `BYP`, from cleared `REG` and `CNT`. -/
theorem streamLoop_ends (p : Pins) (s : State) :
    ∃ n k v, StreamEnds s.cfg.pattern (answerAt s) n v
      ∧ streamLoop p Config.maxShift 0 (streamState p s 0 0#11) = setRes v (streamState p s n k) := by
  rcases streamLoop_spec p s Config.maxShift 0 0#11 with
    ⟨c, hpos, hbudget, hmatch, hfirst, hloop⟩ | ⟨hnone, k, hloop⟩
  · rw [Nat.zero_add] at hbudget
    rw [latency_ofNat hbudget] at hloop
    exact ⟨c, _, _, ⟨hpos, hbudget, hfirst, .inl ⟨hmatch, rfl⟩⟩, hloop⟩
  · rw [Nat.zero_add] at hnone hloop
    have ends : StreamEnds s.cfg.pattern (answerAt s) 1024 0#32 :=
      ⟨by decide, le_rfl, fun j hj hlt => hnone j hj hlt.le, .inr ⟨hnone 1024 (by decide) le_rfl, rfl, rfl⟩⟩
    exact ⟨1024, k, 0#32, ends, hloop⟩

/-! ### BYP -/

theorem bypPreamble_eq (p : Pins) (s : State) :
    bypPreamble p s = runCycles p (bypPreambleCycles s.cfg) (cfgBody p s) := by
  simp only [bypPreamble, bypPreambleCycles, rstBody, cfgBody_cfg, runCycles_append]

@[simp] theorem bypPreamble_cfg (p : Pins) (s : State) : (bypPreamble p s).cfg = s.cfg := by
  rw [bypPreamble_eq, runCycles_cfg, cfgBody_cfg]

@[simp] theorem bypPreambleCycles_length (c : Config) :
    (bypPreambleCycles c).length = rstCount c + 16 := by
  simp [bypPreambleCycles, seqIdleToShiftIr_eq, seqLoadBypass_eq, seqExitIrToShiftDr_eq]

/-- The stream samples the answers that follow those of the preamble. -/
theorem answerAt_bypPreamble (p : Pins) (s : State) :
    answerAt (bypPreamble p s) = fun k => answerAt s (rstCount s.cfg + 16 + k) := by
  funext k
  rw [bypPreamble_eq, answerAt_runCycles, answerAt_cfgBody, bypPreambleCycles_length]

theorem streamState_zero (p : Pins) (s : State) (k : BitVec 11) :
    streamState p s 0 k = { s with reg := 0#32, cnt := k } := rfl

theorem bypBody_eq (p : Pins) (s : State) :
    bypBody p s = streamLoop p Config.maxShift 0 (streamState p (bypPreamble p s) 0 0#11) := by
  rw [bypBody, streamState_zero]

/-- After the preamble and `n` streaming cycles only the registers differ from the run of those cycles. -/
theorem sameButRegisters_streamState (p : Pins) (s : State) (n : Nat) (k : BitVec 11) (v : Word) :
    SameButRegisters (runCycles p (bypPreambleCycles s.cfg ++ streamCycles s.cfg n) (cfgBody p s))
      (setRes v (streamState p (bypPreamble p s) n k)) := by
  rw [runCycles_append, ← bypPreamble_eq, streamState, bypPreamble_cfg]
  rfl

/-- `BYP` behind a successful `LineCheck`: how its stream ends and its cycles. -/
theorem exec_byp_ready {s : State} {p : Pins} (h : LinesReady s p) :
    ∃ t n, exec .byp s = .next t
      ∧ StreamEnds s.cfg.pattern (fun k => answerAt s (rstCount s.cfg + 16 + k)) n t.res
      ∧ RanOperation p (bypPreambleCycles s.cfg ++ streamCycles s.cfg n) s t := by
  obtain ⟨n, k, v, ends, hloop⟩ := streamLoop_ends p (bypPreamble p (accepted s))
  rw [answerAt_bypPreamble, bypPreamble_cfg] at ends
  rw [← bypBody_eq] at hloop
  refine ⟨_, n, ?_, ?_, .of_body (sameButRegisters_streamState p (accepted s) n k v)⟩
  · rw [exec, execByp, lineCommand_ready h, hloop]
  · exact ends

/-- The cycles of `BYP` before the stream in the order R123 writes them. -/
theorem bypPreambleCycles_eq (c : Config) :
    bypPreambleCycles c = List.replicate c.nReset (true, false) ++ List.replicate c.nIdle (false, false)
      ++ [(true, false), (true, false), (false, false), (false, false)]
      ++ List.replicate 7 (false, true) ++ [(true, true)]
      ++ [(true, false), (true, false), (false, false), (false, false)] := by
  rw [bypPreambleCycles, rstCycles, seqIdleToShiftIr_eq, seqLoadBypass_eq, seqExitIrToShiftDr_eq,
    ← List.append_assoc _ (List.replicate 7 _)]

/-- Settles O26: `BYP` is the body of `CFG` and the run of its cycles, as many as the stream takes. -/
theorem bypRule : Obligations.BypRule := by
  intro s
  refine ⟨fun r => exec_refused_of_lineCheck rfl rfl, fun p hready => ?_⟩
  obtain ⟨t, n, hexec, ends, ran⟩ := exec_byp_ready hready
  have legal : s.cfg.wf = true → 32 ≤ n := fun hwf => ends.ge_of_bit_zero (pattern_bit_zero_of_wf hwf)
  have events := ran.trace
  have frame := ran.frame
  rw [List.length_append, bypPreambleCycles_length, streamCycles_length] at events frame
  rw [bypPreambleCycles_eq] at events
  refine ⟨t, n, hexec, ends.pos, ends.budget, legal, ⟨ends.noEarlierMatch, ends.result⟩, events, ?lines,
    frame⟩
  obtain ⟨m, rfl⟩ := Nat.exists_eq_add_of_le' ends.pos
  rw [streamCycles_succ, ← List.append_assoc] at ran
  exact ran.operationLines (lineCheck_distinct hready.1)

end Sys2Proof.Machine
end

section
/-!
PROOF. Encoder, decoder and opcode map agree (`30_encoding.md` R60 to R67). All three are tied to one
relation between a command word and the fields it carries.
-/

namespace Sys2Proof

open Sys2Proof.Laws

/-! ### Fields of a word, bit by bit -/

/-- A field is read off the word's bits. -/
theorem extractLsb'_eq_of_bits {w : Command} {lo n : Nat} {v : BitVec n}
    (h : ∀ i, i < n → w.getLsbD (lo + i) = v.getLsbD i) : w.extractLsb' lo n = v := by
  ext i hi
  rw [BitVec.getElem_extractLsb', h i hi, BitVec.getLsbD_eq_getElem hi]

/-- A word's bits are read off its fields. -/
theorem getLsbD_of_extractLsb'_eq {w : Command} {lo n : Nat} {v : BitVec n} (h : w.extractLsb' lo n = v)
    {i : Nat} (hlo : lo ≤ i) (hhi : i < lo + n) : w.getLsbD i = v.getLsbD (i - lo) := by
  have inside : i - lo < n := by omega
  rw [← h, BitVec.getLsbD_extractLsb', decide_eq_true inside, Bool.true_and, Nat.add_sub_cancel' hlo]

/-- A reserved field of zeros has no bit set. -/
theorem getLsbD_of_extractLsb'_eq_zero {w : Command} {lo n : Nat} (h : w.extractLsb' lo n = 0#n) {i : Nat}
    (hlo : lo ≤ i) (hhi : i < lo + n) : w.getLsbD i = false := by
  rw [getLsbD_of_extractLsb'_eq h hlo hhi, BitVec.getLsbD_zero]

theorem getLsbD_of_opcField_eq {w : Command} {opc : BitVec 8} (h : opcField w = opc) {i : Nat}
    (hlo : 72 ≤ i) (hhi : i < 80) : w.getLsbD i = opc.getLsbD (i - 72) :=
  getLsbD_of_extractLsb'_eq h hlo hhi

/-- The opcode of each encoding, from the lemmas per command. -/
theorem opcField_encode (i : Instr) : opcField (encode i) = i.opc := by
  cases i with
  | wrb tms tdi => exact EncodeOpcode.wrb tms tdi
  | shift tmsWord tdiWord width => exact EncodeOpcode.shift tmsWord tdiWord width
  | rst => exact EncodeOpcode.rst
  | cfg => exact EncodeOpcode.cfg
  | rel => exact EncodeOpcode.rel
  | rdid => exact EncodeOpcode.rdid
  | byp => exact EncodeOpcode.byp
  | acc code => exact EncodeOpcode.acc code
  | bind role pin => exact EncodeOpcode.bind role pin

/-! ### Roles -/

theorem roleOfField_fieldOfRole (r : Role) : roleOfField (fieldOfRole r) = r := by
  cases r <;> decide

theorem fieldOfRole_roleOfField (v : BitVec 2) : fieldOfRole (roleOfField v) = v := by
  revert v
  decide

/-! ### What a command word carries -/

/-- The commands without operand, format Z (R61). -/
def noOperandCommands : List Instr := [.rst, .cfg, .rel, .rdid, .byp]

/-- The word `w` carries the opcode and the operands of a command, its reserved bits are 0, and the operands
are in range (R61 to R65). -/
inductive Carries (w : Command) : Instr → Prop
  | wrb {tms tdi : Bool} (opc : opcField w = 0x01#8) (reserved : w.extractLsb' 2 70 = 0#70)
      (tmsBit : w.getLsbD 0 = tms) (tdiBit : w.getLsbD 1 = tdi) : Carries w (.wrb tms tdi)
  | shift {tmsWord tdiWord : Word} {width : BitVec 6} (opc : opcField w = 0x02#8)
      (reserved : w.extractLsb' 64 2 = 0#2) (range : width ≤ 32#6) (tmsField : w.extractLsb' 32 32 = tmsWord)
      (tdiField : w.extractLsb' 0 32 = tdiWord) (widthField : w.extractLsb' 66 6 = width) :
      Carries w (.shift tmsWord tdiWord width)
  | noOperand {i : Instr} (kind : i ∈ noOperandCommands) (opc : opcField w = i.opc)
      (reserved : w.extractLsb' 0 72 = 0#72) : Carries w i
  | acc {code : Word} (opc : opcField w = 0x08#8) (reserved : w.extractLsb' 32 40 = 0#40)
      (codeField : w.extractLsb' 0 32 = code) : Carries w (.acc code)
  | bind {role : Role} {pin : Pin} (opc : opcField w = 0x09#8) (reserved : w.extractLsb' 10 62 = 0#62)
      (range : pin = pinNone → role = .tdi) (roleBits : roleOfField (w.extractLsb' 8 2) = role)
      (pinField : w.extractLsb' 0 8 = pin) : Carries w (.bind role pin)

/-- The opcodes of R66, and all others. -/
theorem opcField_cases (w : Command) :
    opcField w = 0x01#8 ∨ opcField w = 0x02#8 ∨ (∃ i ∈ noOperandCommands, opcField w = i.opc)
      ∨ opcField w = 0x08#8 ∨ opcField w = 0x09#8 ∨ (opcField w = 0x00#8 ∨ 0x0A#8 ≤ opcField w) := by
  generalize opcField w = opc
  revert opc
  decide

theorem decode_of_opcField_eq_opc {w : Command} {i : Instr} (hi : i ∈ noOperandCommands)
    (h : opcField w = i.opc) : decode w = decodeFormatZ i w := by
  simp only [noOperandCommands, List.mem_cons, List.not_mem_nil, or_false] at hi
  rcases hi with rfl | rfl | rfl | rfl | rfl <;> simp [decode, h, Instr.opc]

/-- What the decoder accepts is what the word carries. -/
theorem carries_of_decode {w : Command} {i : Instr} (h : decode w = .ok i) : Carries w i := by
  rcases opcField_cases w with hop | hop | ⟨z, hz, hop⟩ | hop | hop | hop
  · rw [decode_of_opcField_wrb hop, decodeFormatB] at h
    split at h
    · cases h
    · next hres =>
      cases h
      exact .wrb hop (not_not.mp hres) rfl rfl
  · rw [decode_of_opcField_shift hop, decodeFormatS] at h
    split at h
    · cases h
    · next hres =>
      split at h
      · cases h
      · next hrange =>
        cases h
        exact .shift hop (not_not.mp hres) (not_not.mp hrange) rfl rfl rfl
  · rw [decode_of_opcField_eq_opc hz hop, decodeFormatZ] at h
    split at h
    · cases h
    · next hres =>
      cases h
      exact .noOperand hz hop (not_not.mp hres)
  · rw [decode_of_opcField_acc hop, decodeFormatC] at h
    split at h
    · cases h
    · next hres =>
      cases h
      exact .acc hop (not_not.mp hres) rfl
  · rw [decode_of_opcField_bind hop, decodeFormatP] at h
    split at h
    · cases h
    · next hres =>
      split at h
      · cases h
      · next hrange =>
        cases h
        exact .bind hop (not_not.mp hres) (fun hpin => not_not.mp fun hne => hrange ⟨hpin, hne⟩) rfl rfl
  · rw [decode_reservedOpcode hop] at h
    cases h

/-- The decoder accepts every word that carries a command. -/
theorem decode_of_carries {w : Command} {i : Instr} (h : Carries w i) : decode w = .ok i := by
  cases h with
  | wrb hop hres htms htdi =>
    rw [decode_of_opcField_wrb hop, decodeFormatB, if_neg (not_not_intro hres), htms, htdi]
  | shift hop hres hrange htms htdi hwidth =>
    subst hwidth
    rw [decode_of_opcField_shift hop, decodeFormatS, if_neg (not_not_intro hres),
      if_neg (not_not_intro hrange), htms, htdi]
  | noOperand hi hop hres =>
    rw [decode_of_opcField_eq_opc hi hop, decodeFormatZ, if_neg (not_not_intro hres)]
  | acc hop hres hcode => rw [decode_of_opcField_acc hop, decodeFormatC, if_neg (not_not_intro hres), hcode]
  | bind hop hres hrange hrole hpin =>
    rw [decode_of_opcField_bind hop, decodeFormatP, if_neg (not_not_intro hres), hrole, hpin,
      if_neg fun both => both.2 (hrange both.1)]

/-! ### Decoding an encoding -/

/-- The encoding of a well-formed command carries it. -/
theorem carries_encode {i : Instr} (h : i.wellFormed = true) : Carries (encode i) i := by
  have hop := opcField_encode i
  cases i with
  | wrb tms tdi =>
    refine .wrb hop (extractLsb'_eq_of_bits fun i hi => ?_) (encode_wrb_bit tms tdi 0)
      (encode_wrb_bit tms tdi 1)
    rw [encode_wrb_bit, if_neg (by omega), if_neg (by omega), if_pos (by omega), BitVec.getLsbD_zero]
  | shift tmsWord tdiWord width =>
    refine .shift hop (extractLsb'_eq_of_bits fun i hi => ?_) (of_decide_eq_true h)
      (extractLsb'_eq_of_bits fun i hi => ?_) (extractLsb'_eq_of_bits fun i hi => ?_)
      (extractLsb'_eq_of_bits fun i hi => ?_)
    · rw [encode_shift_bit, if_neg (by omega), if_neg (by omega), if_pos (by omega), BitVec.getLsbD_zero]
    · rw [encode_shift_bit, if_neg (by omega), if_pos (by omega), Nat.add_sub_cancel_left]
    · rw [encode_shift_bit, if_pos (by omega), Nat.zero_add]
    · rw [encode_shift_bit, if_neg (by omega), if_neg (by omega), if_neg (by omega), if_pos (by omega),
        Nat.add_sub_cancel_left]
  | rst => exact .noOperand (by decide) hop (by decide)
  | cfg => exact .noOperand (by decide) hop (by decide)
  | rel => exact .noOperand (by decide) hop (by decide)
  | rdid => exact .noOperand (by decide) hop (by decide)
  | byp => exact .noOperand (by decide) hop (by decide)
  | acc code =>
    refine .acc hop (extractLsb'_eq_of_bits fun i hi => ?_) (extractLsb'_eq_of_bits fun i hi => ?_)
    · rw [encode_acc_bit, if_neg (by omega), if_pos (by omega), BitVec.getLsbD_zero]
    · rw [encode_acc_bit, if_pos (by omega), Nat.zero_add]
  | bind role pin =>
    have roleField : (encode (.bind role pin)).extractLsb' 8 2 = fieldOfRole role :=
      extractLsb'_eq_of_bits fun i hi => by
        rw [encode_bind_bit, if_neg (by omega), if_pos (by omega), Nat.add_sub_cancel_left]
    refine .bind hop (extractLsb'_eq_of_bits fun i hi => ?_) (of_decide_eq_true h)
      (roleField ▸ roleOfField_fieldOfRole role) (extractLsb'_eq_of_bits fun i hi => ?_)
    · rw [encode_bind_bit, if_neg (by omega), if_neg (by omega), if_pos (by omega), BitVec.getLsbD_zero]
    · rw [encode_bind_bit, if_pos (by omega), Nat.zero_add]

/-- Decode after encode, for every well-formed command. -/
theorem decode_encode {i : Instr} (h : i.wellFormed = true) : decode (encode i) = .ok i :=
  decode_of_carries (carries_encode h)

/-- Settles O1: an encoding carries its command, and the decoder reads what a word carries. -/
theorem decodeOfEncode : Obligations.DecodeOfEncode := fun _ => decode_encode

/-! ### Encoding what was decoded -/

theorem wellFormed_of_carries {w : Command} {i : Instr} (h : Carries w i) : i.wellFormed = true := by
  cases h with
  | wrb => rfl
  | shift _ _ hrange => exact decide_eq_true hrange
  | noOperand hi =>
    simp only [noOperandCommands, List.mem_cons, List.not_mem_nil, or_false] at hi
    rcases hi with rfl | rfl | rfl | rfl | rfl <;> rfl
  | acc => rfl
  | bind _ _ hrange => exact decide_eq_true hrange

/-- A command without operand is its opcode over 72 zeros. -/
theorem encode_noOperand {i : Instr} (hi : i ∈ noOperandCommands) : encode i = i.opc ++ 0#72 := by
  simp only [noOperandCommands, List.mem_cons, List.not_mem_nil, or_false] at hi
  rcases hi with rfl | rfl | rfl | rfl | rfl <;> rfl

/-- Every bit of a word that carries a command stands in a field: the word is the command's encoding. -/
theorem encode_of_carries {w : Command} {i : Instr} (h : Carries w i) : encode i = w := by
  refine BitVec.eq_of_getLsbD_eq fun b hb => ?_
  cases h with
  | wrb hop hres htms htdi =>
    rw [encode_wrb_bit]
    split_ifs with h0 h1 h72
    · rw [h0, htms]
    · rw [h1, htdi]
    · exact (getLsbD_of_extractLsb'_eq_zero hres (by omega) (by omega)).symm
    · exact (getLsbD_of_opcField_eq hop (by omega) hb).symm
  | shift hop hres hrange htms htdi hwidth =>
    rw [encode_shift_bit]
    split_ifs with h32 h64 h66 h72
    · exact (getLsbD_of_extractLsb'_eq htdi (Nat.zero_le _) (by omega)).symm
    · exact (getLsbD_of_extractLsb'_eq htms (by omega) (by omega)).symm
    · exact (getLsbD_of_extractLsb'_eq_zero hres (by omega) (by omega)).symm
    · exact (getLsbD_of_extractLsb'_eq hwidth (by omega) (by omega)).symm
    · exact (getLsbD_of_opcField_eq hop (by omega) hb).symm
  | noOperand hi hop hres =>
    rw [encode_noOperand hi, zero_payload_bit]
    split_ifs with h72
    · exact (getLsbD_of_extractLsb'_eq_zero hres (Nat.zero_le _) (by omega)).symm
    · exact (getLsbD_of_opcField_eq hop (by omega) hb).symm
  | acc hop hres hcode =>
    rw [encode_acc_bit]
    split_ifs with h32 h72
    · exact (getLsbD_of_extractLsb'_eq hcode (Nat.zero_le _) (by omega)).symm
    · exact (getLsbD_of_extractLsb'_eq_zero hres (by omega) (by omega)).symm
    · exact (getLsbD_of_opcField_eq hop (by omega) hb).symm
  | bind hop hres hrange hrole hpin =>
    rw [encode_bind_bit]
    split_ifs with h8 h10 h72
    · exact (getLsbD_of_extractLsb'_eq hpin (Nat.zero_le _) (by omega)).symm
    · rw [← hrole, fieldOfRole_roleOfField]
      exact (getLsbD_of_extractLsb'_eq rfl (by omega) (by omega)).symm
    · exact (getLsbD_of_extractLsb'_eq_zero hres (by omega) (by omega)).symm
    · exact (getLsbD_of_opcField_eq hop (by omega) hb).symm

/-- Settles O2: a word that decodes carries its command, so it is the encoding. -/
theorem encodeOfDecode : Obligations.EncodeOfDecode := fun _ _ h =>
  ⟨encode_of_carries (carries_of_decode h), wellFormed_of_carries (carries_of_decode h)⟩

end Sys2Proof
end

section
/-!
PROOF. The opcode map (`30_encoding.md` R66): a word fits a row exactly when it has the row's opcode and its
reserved bits are 0.
-/

namespace Sys2Proof

/-! ### The rows of the opcode map -/

/-- The row `r` fixes the opcode `opc` and `n` reserved bits from bit `lo` up, and leaves every other bit
free. -/
def OpRow.Fixes (r : OpRow) (opc : BitVec 8) (lo n : Nat) : Prop :=
  ∀ i, i < 80 → r.mask.getLsbD i = decide (lo ≤ i ∧ i < lo + n ∨ 72 ≤ i)
    ∧ r.bits.getLsbD i = (decide (72 ≤ i) && opc.getLsbD (i - 72))

/-- A word fits a row when it agrees with the row on every bit under the mask. -/
theorem OpRow.fits_iff_bits (r : OpRow) (w : Command) :
    r.fits w = true ↔ ∀ i, i < 80 → (w.getLsbD i && r.mask.getLsbD i) = r.bits.getLsbD i := by
  rw [OpRow.fits, beq_iff_eq, BitVec.eq_of_getLsbD_eq_iff]
  simp only [BitVec.getLsbD_and]

/-- A word fits a row exactly when it has the opcode and the reserved bits are 0. -/
theorem OpRow.Fixes.fits_iff {r : OpRow} {opc : BitVec 8} {lo n : Nat} (h : r.Fixes opc lo n)
    (below : lo + n ≤ 72) (w : Command) :
    r.fits w = true ↔ opcField w = opc ∧ w.extractLsb' lo n = 0#n := by
  rw [OpRow.fits_iff_bits]
  constructor
  · intro hbits
    refine ⟨extractLsb'_eq_of_bits fun i hi => ?_, extractLsb'_eq_of_bits fun i hi => ?_⟩
    · obtain ⟨hmask, hrow⟩ := h (72 + i) (by omega)
      simpa [hmask, hrow] using hbits (72 + i) (by omega)
    · have notOpcode : ¬ 72 ≤ lo + i := by omega
      obtain ⟨hmask, hrow⟩ := h (lo + i) (by omega)
      simpa [hmask, hrow, hi, notOpcode] using hbits (lo + i) (by omega)
  · rintro ⟨hop, hres⟩ i hi
    obtain ⟨hmask, hrow⟩ := h i hi
    rw [hmask, hrow]
    by_cases high : 72 ≤ i
    · simp [high, getLsbD_of_opcField_eq hop high hi]
    · by_cases inside : lo ≤ i ∧ i < lo + n
      · simp [high, inside, getLsbD_of_extractLsb'_eq_zero hres inside.1 inside.2]
      · simp [high, inside]

/-- The opcode of a row, and the place and length of its reserved bits (R61 to R65). -/
structure RowFormat where
  row : OpRow
  opc : BitVec 8
  lo : Nat
  n : Nat

/-- The rows of R66 with their formats. -/
def rowFormats : List RowFormat :=
  [ ⟨⟨"WRB", 0x01000000000000000000#80, 0xFFFFFFFFFFFFFFFFFFFC#80⟩, 0x01#8, 2, 70⟩,
    ⟨⟨"SHIFT", 0x02000000000000000000#80, 0xFF030000000000000000#80⟩, 0x02#8, 64, 2⟩,
    ⟨⟨"RST", 0x03000000000000000000#80, 0xFFFFFFFFFFFFFFFFFFFF#80⟩, 0x03#8, 0, 72⟩,
    ⟨⟨"CFG", 0x04000000000000000000#80, 0xFFFFFFFFFFFFFFFFFFFF#80⟩, 0x04#8, 0, 72⟩,
    ⟨⟨"REL", 0x05000000000000000000#80, 0xFFFFFFFFFFFFFFFFFFFF#80⟩, 0x05#8, 0, 72⟩,
    ⟨⟨"RDID", 0x06000000000000000000#80, 0xFFFFFFFFFFFFFFFFFFFF#80⟩, 0x06#8, 0, 72⟩,
    ⟨⟨"BYP", 0x07000000000000000000#80, 0xFFFFFFFFFFFFFFFFFFFF#80⟩, 0x07#8, 0, 72⟩,
    ⟨⟨"ACC", 0x08000000000000000000#80, 0xFFFFFFFFFFFF00000000#80⟩, 0x08#8, 32, 40⟩,
    ⟨⟨"BIND", 0x09000000000000000000#80, 0xFFFFFFFFFFFFFFFFFC00#80⟩, 0x09#8, 10, 62⟩ ]

theorem rowFormats_rows : rowFormats.map RowFormat.row = opcodeMap := rfl

theorem rowFormats_fix : ∀ f ∈ rowFormats, f.row.Fixes f.opc f.lo f.n ∧ f.lo + f.n ≤ 72 := by
  unfold OpRow.Fixes
  decide

/-- A word fits a row exactly when it has the row's opcode and zeros in its reserved bits. -/
theorem RowFormat.fits_iff {f : RowFormat} (hf : f ∈ rowFormats) (w : Command) :
    f.row.fits w = true ↔ opcField w = f.opc ∧ w.extractLsb' f.lo f.n = 0#f.n :=
  (rowFormats_fix f hf).1.fits_iff (rowFormats_fix f hf).2 w

/-! ### A word that decodes fits one row -/

/-- No two rows share an opcode. -/
theorem RowFormat.row_eq_of_opc_eq :
    ∀ f ∈ rowFormats, ∀ g ∈ rowFormats, g.opc = f.opc → g.row = f.row := by decide

theorem rowFormats_filter_opc :
    ∀ f ∈ rowFormats,
      (rowFormats.filter (fun g => decide (g.opc = f.opc))).map RowFormat.row = [f.row] := by decide

/-- The row a word fits is the only one. -/
theorem opcodeMap_filter_fits {f : RowFormat} (hf : f ∈ rowFormats) {w : Command}
    (h : f.row.fits w = true) : opcodeMap.filter (fun r => r.fits w) = [f.row] := by
  have opcode : opcField w = f.opc := ((RowFormat.fits_iff hf w).mp h).1
  have sameOpcode : ∀ g ∈ rowFormats, g.row.fits w = decide (g.opc = f.opc) := by
    intro g hg
    by_cases hopc : g.opc = f.opc
    · rw [RowFormat.row_eq_of_opc_eq f hf g hg hopc, h, decide_eq_true hopc]
    · rw [decide_eq_false hopc, Bool.eq_false_iff]
      exact fun hfits => hopc (((RowFormat.fits_iff hg w).mp hfits).1.symm.trans opcode)
  calc opcodeMap.filter (fun r => r.fits w)
      = (rowFormats.filter (fun g => g.row.fits w)).map RowFormat.row := by
        rw [← rowFormats_rows, List.filter_map]
        rfl
    _ = (rowFormats.filter (fun g => decide (g.opc = f.opc))).map RowFormat.row := by
        rw [List.filter_congr sameOpcode]
    _ = [f.row] := rowFormats_filter_opc f hf

/-- The formats of the commands without operand. -/
theorem rowFormat_noOperand :
    ∀ i ∈ noOperandCommands, ∃ f ∈ rowFormats, f.row.mnemonic = i.mnemonic ∧ f.opc = i.opc
      ∧ f.lo = 0 ∧ f.n = 72 := by decide

/-- A word that carries a command fits the row of that command. -/
theorem fits_of_carries {w : Command} {i : Instr} (h : Carries w i) :
    ∃ f ∈ rowFormats, f.row.fits w = true ∧ f.row.mnemonic = i.mnemonic := by
  have fits (f : RowFormat) (hf : f ∈ rowFormats) (hname : f.row.mnemonic = i.mnemonic)
      (hop : opcField w = f.opc) (hres : w.extractLsb' f.lo f.n = 0#f.n) :
      ∃ f ∈ rowFormats, f.row.fits w = true ∧ f.row.mnemonic = i.mnemonic :=
    ⟨f, hf, (RowFormat.fits_iff hf w).mpr ⟨hop, hres⟩, hname⟩
  cases h with
  | wrb hop hres => exact fits rowFormats[0] (List.getElem_mem _) rfl hop hres
  | shift hop hres => exact fits rowFormats[1] (List.getElem_mem _) rfl hop hres
  | noOperand hi hop hres =>
    obtain ⟨⟨row, opc, lo, n⟩, hf, hname, hopc, hlo, hn⟩ := rowFormat_noOperand i hi
    subst hlo hn
    exact fits _ hf hname (hop.trans hopc.symm) hres
  | acc hop hres => exact fits rowFormats[7] (List.getElem_mem _) rfl hop hres
  | bind hop hres => exact fits rowFormats[8] (List.getElem_mem _) rfl hop hres

/-! ### The words that fit no row -/

/-- What the decoder answers to a word that fits a row: a command, or an operand out of range. -/
theorem decode_of_fits {w : Command} {f : RowFormat} (hf : f ∈ rowFormats) (h : f.row.fits w = true) :
    (∃ i, decode w = .ok i) ∨ decode w = .error .widthRange ∨ decode w = .error .pinRange := by
  obtain ⟨hop, hres⟩ := (RowFormat.fits_iff hf w).mp h
  have noOperand (i : Instr) (hi : i ∈ noOperandCommands) (hop : opcField w = i.opc)
      (hres : w.extractLsb' 0 72 = 0#72) : ∃ i, decode w = .ok i :=
    ⟨i, decode_of_carries (.noOperand hi hop hres)⟩
  simp only [rowFormats, List.mem_cons, List.not_mem_nil, or_false] at hf
  rcases hf with rfl | rfl | rfl | rfl | rfl | rfl | rfl | rfl | rfl
  · exact .inl ⟨_, decode_of_carries (.wrb hop hres rfl rfl)⟩
  · by_cases hrange : w.extractLsb' 66 6 ≤ 32#6
    · exact .inl ⟨_, decode_of_carries (.shift hop hres hrange rfl rfl rfl)⟩
    · exact .inr (.inl (decode_widthRange hop hres (by bv_omega)))
  · exact .inl (noOperand .rst (by decide) hop hres)
  · exact .inl (noOperand .cfg (by decide) hop hres)
  · exact .inl (noOperand .rel (by decide) hop hres)
  · exact .inl (noOperand .rdid (by decide) hop hres)
  · exact .inl (noOperand .byp (by decide) hop hres)
  · exact .inl ⟨_, decode_of_carries (.acc hop hres rfl)⟩
  · by_cases hpin : w.extractLsb' 0 8 = pinNone
    · by_cases hrole : w.extractLsb' 8 2 = 3#2
      · exact .inl ⟨_, decode_of_carries
          (.bind hop hres (fun _ => (roleOfField_eq_tdi_iff _).mpr hrole) rfl rfl)⟩
      · exact .inr (.inr (decode_pinRange hop hres hpin hrole))
    · exact .inl ⟨_, decode_bind_of_ne_pinNone hop hres hpin⟩

/-- A word that fits no row is refused for its opcode or a reserved bit. -/
theorem decode_of_fits_none {w : Command} (h : ∀ f ∈ rowFormats, f.row.fits w ≠ true) :
    decode w = .error .reservedOpcode ∨ decode w = .error .reservedField := by
  have reserved (f : RowFormat) (hf : f ∈ rowFormats) (hop : opcField w = f.opc) :
      w.extractLsb' f.lo f.n ≠ 0#f.n :=
    fun hres => h f hf ((RowFormat.fits_iff hf w).mpr ⟨hop, hres⟩)
  rcases opcField_cases w with hop | hop | ⟨i, hi, hop⟩ | hop | hop | hop
  · exact .inr (decode_reservedField (.inl ⟨hop, reserved rowFormats[0] (List.getElem_mem _) hop⟩))
  · exact .inr (decode_reservedField
      (.inr (.inl ⟨hop, reserved rowFormats[1] (List.getElem_mem _) hop⟩)))
  · obtain ⟨⟨row, opc, lo, n⟩, hf, -, hopc, hlo, hn⟩ := rowFormat_noOperand i hi
    subst hlo hn
    rw [decode_of_opcField_eq_opc hi hop, decodeFormatZ, if_pos (reserved _ hf (hop.trans hopc.symm))]
    exact .inr rfl
  · exact .inr (decode_reservedField
      (.inr (.inr (.inr (.inl ⟨hop, reserved rowFormats[7] (List.getElem_mem _) hop⟩)))))
  · exact .inr (decode_reservedField
      (.inr (.inr (.inr (.inr ⟨hop, reserved rowFormats[8] (List.getElem_mem _) hop⟩)))))
  · exact .inl (decode_reservedOpcode hop)

/-- Settles O3, the first clause by the row of the carried command, the second by the rows' formats. -/
theorem decoderFollowsOpcodeMap : Obligations.DecoderFollowsOpcodeMap := by
  refine ⟨fun w i hdec => ?row, fun w => ?none⟩
  case row =>
    obtain ⟨f, hf, hfits, hname⟩ := fits_of_carries (carries_of_decode hdec)
    exact ⟨f.row, opcodeMap_filter_fits hf hfits, hname⟩
  case none =>
    rw [← rowFormats_rows, List.forall_mem_map]
    constructor
    · exact fun hnone => decode_of_fits_none fun f hf => Bool.eq_false_iff.mp (hnone f hf)
    · intro hdec f hf
      rw [Bool.eq_false_iff]
      intro hfits
      rcases decode_of_fits hf hfits with ⟨i, hok⟩ | hrange | hrange <;> simp_all

/-! ### Words written out in the spec -/

/-- Settles O4: each word is a fixed word, and the decoder computes. -/
theorem writtenWordsDecode : Obligations.WrittenWordsDecode := by
  unfold Obligations.WrittenWordsDecode
  decide

end Sys2Proof
end

section
/-!
PROOF. The command port and one step (`10_state.md` R16, R24, `70_reset_and_hazards.md` R210,
`00_scope.md` R7, R8).
-/

namespace Sys2Proof.Machine

/-! ### Block reset -/

theorem blockReset_atResetValues (s : State) : AtResetValues (blockReset s) :=
  atResetValues_resetWith s.cfg

theorem step_reset {s : State} {rest : List HostInput} (hwf : s.cfg.wf = true)
    (hhost : s.host = .reset :: rest) : step s = .next (blockReset { s with host := rest }) := by
  simp [step, hwf, fetch, hhost]

/-- Settles O7: the step is the block reset, which leaves what is not the block's. -/
theorem blockResetIsTakenAnyTime : Obligations.BlockResetIsTakenAnyTime := fun _ _ hwf hhost =>
  ⟨_, step_reset hwf hhost, blockReset_atResetValues _, rfl, rfl, rfl⟩

/-! ### The command port -/

/-- Settles O8: the word is accepted and decoded. -/
theorem stepRunsTheDecodedCommand : Obligations.StepRunsTheDecodedCommand := fun _ _ _ _ =>
  step_of_decode_ok

/-- A word of the port's own width is presented as it is. -/
@[simp] theorem commandOfBits_toNat (w : Command) : commandOfBits 80 w.toNat = w := by
  rw [commandOfBits, Nat.mod_eq_of_lt w.isLt, BitVec.ofNat_toNat, BitVec.setWidth_eq]

/-- Settles O9: the presented word decodes to the command it encodes. -/
theorem presentedCommandRuns : Obligations.PresentedCommandRuns := by
  intro s i hwf hi
  have presented : (s.withFetchWord 80 (encode i).toNat).host = .command (encode i) :: s.host := by
    rw [withFetchWord_host, commandOfBits_toNat]
  exact step_of_decode_ok hwf rfl presented (decode_encode hi)

/-- Settles O10: in both cases the port hands nothing to the engine. -/
theorem nothingAcceptedNothingChanges : Obligations.NothingAcceptedNothingChanges := by
  intro s hwf
  refine ⟨fun hhost => ?_, fun w rest hhost hbusy => ?_⟩
  · simp [step, hwf, fetch, hhost]
  · simp [step, hwf, fetch, hhost, hbusy]

/-! ### The configuration record -/

theorem eligibleOk_iff (c : Config) :
    c.eligibleOk = true ↔ (∀ p ∈ c.eligible, p ≤ 254) ∧ c.eligible.Pairwise (· < ·) := by
  simp [Config.eligibleOk, Nat.lt_succ_iff]

theorem patternOk_iff (c : Config) :
    c.patternOk = true ↔ c.pattern.getLsbD 0 = true
      ∧ ∀ k, 1 ≤ k → k ≤ 31 → c.pattern.rotateLeft k ≠ c.pattern := by
  have range (k : Nat) : k ∈ List.range' 1 31 ↔ 1 ≤ k ∧ k ≤ 31 := by
    rw [List.mem_range'_1]
    omega
  simp only [Config.patternOk, Bool.and_eq_true, List.all_eq_true, range, bne_iff_ne, and_imp]

/-- The check of R8 is the constraints of R7. -/
theorem wf_iff_configLegal (c : Config) : c.wf = true ↔ ConfigLegal c := by
  simp only [Config.wf, ConfigLegal, Bool.and_eq_true, decide_eq_true_eq, eligibleOk_iff, patternOk_iff,
    and_assoc]

theorem lineCommand_ne_refused (body : Pins → State → State) (s : State) (r : Refusal) :
    lineCommand body s ≠ .refused r := by
  unfold lineCommand
  split
  · exact nofun
  · split <;> exact nofun

/-- A command answers a next state at once, or it is a body behind `LineCheck`. -/
theorem exec_next_or_lineCommand (i : Instr) (s : State) :
    (∃ t, exec i s = .next t) ∨ ∃ body, exec i s = lineCommand body s := by
  have behindLineCheck (hline : lineTouching i = true) (hwf : i.wellFormed = true) :
      ∃ body, exec i s = lineCommand body s :=
    (exec_lineTouching hline hwf).imp fun _ hexec => hexec s
  cases i with
  | wrb tms tdi => exact .inr (behindLineCheck rfl rfl)
  | shift tmsWord tdiWord width =>
    by_cases hwidth : width ≤ 32#6
    · exact .inr (behindLineCheck rfl (decide_eq_true hwidth))
    · exact .inl ⟨_, if_pos hwidth⟩
  | rst => exact .inr (behindLineCheck rfl rfl)
  | cfg => exact .inr (behindLineCheck rfl rfl)
  | rel => exact .inr (behindLineCheck rfl rfl)
  | rdid => exact .inr (behindLineCheck rfl rfl)
  | byp => exact .inr (behindLineCheck rfl rfl)
  | acc code => exact .inl ⟨_, rfl⟩
  | bind role pin =>
    rw [exec, execBind]
    split
    · exact .inl ⟨_, rfl⟩
    · exact .inl ⟨_, rfl⟩

/-- Every command has a meaning: the model refuses none. -/
theorem exec_ne_refused (i : Instr) (s : State) (r : Refusal) : exec i s ≠ .refused r := by
  rcases exec_next_or_lineCommand i s with ⟨t, h⟩ | ⟨body, h⟩
  · rw [h]
    exact nofun
  · rw [h]
    exact lineCommand_ne_refused body s r

/-- A legal configuration is never refused. -/
theorem step_ne_refused {s : State} (hwf : s.cfg.wf = true) (r : Refusal) : step s ≠ .refused r := by
  rw [step, if_pos hwf]
  split
  · exact nofun
  · exact nofun
  · split
    · exact nofun
    · exact exec_ne_refused _ _ r

/-- Settles O11: the check decides, and a step past it is no refusal of the model. -/
theorem onlyIllegalConfigurationIsRefused : Obligations.OnlyIllegalConfigurationIsRefused := by
  intro s
  rw [← wf_iff_configLegal]
  refine ⟨fun h hwf => step_ne_refused hwf _ h, fun hwf => ?_⟩
  rw [step, if_neg hwf]

end Sys2Proof.Machine
end

section
/-!
PROOF. What a refusal leaves, and the commands without a line: `BIND` and `ACC` (`60_exceptions.md` R193,
R197; `40_transport.md` R91; `42_idcode_validator.md` R141).
-/

namespace Sys2Proof.Machine

/-! ### Refusals -/

/-- Settles O13: a line-touching command looks for its pins before its body. -/
theorem missingPinStops : Obligations.MissingPinStops := by
  intro i s p q hline hwf hcheck hmissing
  obtain ⟨body, hexec⟩ := exec_lineTouching hline hwf
  simp [hexec, lineCommand, hcheck, hmissing]

/-- A command is refused, or it leaves `ERR` and the recorded reasons alone. -/
theorem exec_refused_or_errSame {i : Instr} {s t : State} (h : exec i s = .next t) :
    (∃ r, t = refusedState r s) ∨ (t.err = s.err ∧ t.reasons = s.reasons) := by
  rcases exec_cases h with hrefused | ⟨p, -, -, hact, -⟩ | ⟨role, pin, -, -, rfl⟩ | ⟨c, -, rfl⟩
  · exact .inl hrefused
  · obtain ⟨-, -, herr, hreasons, -⟩ := hact.unchanged
    exact .inr ⟨herr, hreasons⟩
  · exact .inr ⟨rfl, rfl⟩
  · exact .inr ⟨rfl, rfl⟩

theorem refusedState_reasons_ne (r : RefuseReason) (s : State) :
    (refusedState r s).reasons ≠ s.reasons := by
  simp [refusedState]

/-- Settles O14: a refusal always adds a reason, so the record tells the two cases apart. -/
theorem refusalChangesOnlyErr : Obligations.RefusalChangesOnlyErr := by
  intro i s t h
  rcases exec_refused_or_errSame h with ⟨r, rfl⟩ | ⟨herr, hreasons⟩
  · exact ⟨fun _ => ⟨r, rfl⟩, fun same => absurd same (refusedState_reasons_ne r s)⟩
  · exact ⟨fun changed => absurd hreasons changed, fun _ => herr⟩

/-- Settles O15: of what a step can do only the block reset clears `ERR`. -/
theorem errIsSticky : Obligations.ErrIsSticky := by
  intro s t hstep herr hreset
  rcases (step_cases hstep).2 with ⟨-, rfl⟩ | ⟨_, _, -, -, rfl⟩ | ⟨rest, hhost, -⟩
    | ⟨_, _, _, -, -, -, rfl⟩ | ⟨w, rest, i, -, -, -, hexec⟩
  · exact herr
  · exact herr
  · exact absurd hhost (hreset rest)
  · rfl
  · rcases exec_refused_or_errSame hexec with ⟨r, rfl⟩ | ⟨hsame, -⟩
    · rfl
    · exact hsame.trans herr

/-! ### BIND and ACC -/

theorem bindingOf_setBinding (b : Bindings) (role r : Role) (pin : Pin) :
    bindingOf (setBinding b role pin) r = if r = role then pin else bindingOf b r := by
  cases role <;> cases r <;> rfl

/-- `BIND` of a legal pin writes the one register (R91). -/
theorem execBind_legal {role : Role} {pin : Pin} {s : State}
    (h : isEligible s.cfg pin = true ∨ (pin = pinNone ∧ role = .tdi)) :
    execBind role pin s =
      .next { s with bind := setBinding s.bind role pin, busy := false, seqPos := 0 } := by
  have legal : (isEligible s.cfg pin || (decide (pin = pinNone) && decide (role = .tdi))) = true := by
    simpa using h
  rw [execBind, if_pos legal]
  rfl

/-- Settles O16: `BIND` decides by the pin alone. -/
theorem bindRule : Obligations.BindRule := by
  intro s role pin
  refine ⟨fun hlegal => ⟨_, execBind_legal hlegal, ?_, rfl⟩, fun hillegal => ?_⟩
  · exact fun r => bindingOf_setBinding s.bind role r pin
  · rw [not_or] at hillegal
    exact execBind_refused (Bool.eq_false_iff.mpr hillegal.1) hillegal.2

/-- Settles O17: `ACC` makes no `LineCheck`, and its one bit is 0 or 1 as a word. -/
theorem accRule : Obligations.AccRule := by
  intro s code
  rw [← zextBit_eq_ite]
  rfl

end Sys2Proof.Machine
end

section
/-!
PROOF. The invariants between commands (`10_state.md` R26): each holds after reset, and every step keeps it.
-/

namespace Sys2Proof.Machine

/-! ### One step and an invariant -/

/-- What a predicate on states needs so that every step keeps it. -/
structure StepClosed (P : State → Prop) : Prop where
  host : ∀ s h, P s → P { s with host := h }
  reset : ∀ s, P s → P (blockReset s)
  refuse : ∀ r s, P s → P (refusedState r s)
  exec : ∀ i s t, P s → exec i s = .next t → P t

/-- Every step keeps such a predicate. -/
theorem StepClosed.step {P : State → Prop} (hP : StepClosed P) {s t : State} (hs : P s)
    (h : step s = .next t) : P t := by
  rcases (step_cases h).2 with ⟨-, rfl⟩ | ⟨_, _, -, -, rfl⟩ | ⟨rest, -, rfl⟩
    | ⟨w, rest, r, -, -, -, rfl⟩ | ⟨w, rest, i, -, -, -, hexec⟩
  · exact hs
  · exact hs
  · exact hP.reset _ (hP.host s rest hs)
  · exact hP.refuse r _ (hP.host s rest hs)
  · exact hP.exec i _ t (hP.host s rest hs) hexec

/-! ### Bindings -/

theorem bindingsLegal_setBinding {s : State} {role : Role} {pin : Pin} (hs : BindingsLegal s)
    (hpin : pinLegal s.cfg pin) (r : Role) : pinLegal s.cfg (bindingOf (setBinding s.bind role pin) r) := by
  rw [bindingOf_setBinding]
  split
  · exact hpin
  · exact hs r

/-- Only `BIND` writes a binding register, and it checks the pin. -/
theorem bindingsLegal_closed : StepClosed BindingsLegal where
  host _ _ hs := hs
  reset s _ r := .inl (bindingOf_resetWith s.cfg r)
  refuse _ _ hs := hs
  exec i s t hs h := by
    rcases exec_cases h with ⟨r, rfl⟩ | ⟨p, -, -, hact, -⟩ | ⟨role, pin, -, hpin, rfl⟩ | ⟨c, -, rfl⟩
    · exact hs
    · obtain ⟨hcfg, hbind, -⟩ := hact.unchanged
      intro r
      rw [hcfg, hbind]
      exact hs r
    · have legal : pinLegal s.cfg pin := hpin.elim .inr fun h => .inl h.1
      exact bindingsLegal_setBinding hs legal
    · exact hs

/-- Settles O38, by the check that `BIND` makes. -/
theorem stepKeepsBindingsLegal : Obligations.StepKeepsBindingsLegal := fun _ _ =>
  bindingsLegal_closed.step

/-! ### The pin space -/

/-- A write to an eligible pin keeps the pin space canonical and inside `ELIGIBLE`. -/
theorem linesLegal_setLine {s t : State} {p : Pin} {l : Line} (hs : LinesLegal s)
    (hp : isEligible s.cfg p = true) (hcfg : t.cfg = s.cfg) (hlines : t.lines = setLine s.lines p.toNat l) :
    LinesLegal t := by
  obtain ⟨hcanonical, heligible⟩ := hs
  rw [LinesLegal, hcfg, hlines]
  refine ⟨linesWf_setLine _ _ hcanonical, fun e he => ?_⟩
  rcases mem_setLine he with rfl | he
  · simpa [isEligible] using hp
  · exact heligible e he

theorem LineActions.linesLegal {ps : List Pin} {s t : State} (h : LineActions ps s t)
    (hps : ∀ p ∈ ps, isEligible s.cfg p = true) (hs : LinesLegal s) : LinesLegal t := by
  induction h with
  | refl => exact hs
  | mode p m hp _ ih => exact ih hps (linesLegal_setLine hs (hps p hp) rfl rfl)
  | write p v hp _ ih => exact ih hps (linesLegal_setLine hs (hps p hp) rfl rfl)
  | sample p hp _ ih => exact ih hps hs
  | wait n _ ih => exact ih hps hs
  | registers _ _ _ _ _ _ _ _ _ ih => exact ih hps hs

/-- The pins of a command that starts are eligible, so its writes stay inside `ELIGIBLE`. -/
theorem linesLegal_closed : StepClosed LinesLegal where
  host _ _ hs := hs
  reset s _ := ⟨linesWf_reset s.cfg, nofun⟩
  refuse _ _ hs := hs
  exec i s t hs h := by
    rcases exec_cases h with ⟨r, rfl⟩ | ⟨p, -, hready, hact, -⟩ | ⟨role, pin, -, -, rfl⟩ | ⟨c, -, rfl⟩
    · exact hs
    · exact hact.linesLegal ((missingPin_none_iff s.cfg p).mp hready.2) hs
    · exact hs
    · exact hs

/-- Settles O39, by induction on the line actions of a command. -/
theorem stepKeepsLinesLegal : Obligations.StepKeepsLinesLegal := fun _ _ => linesLegal_closed.step

/-! ### Lines and trace -/

theorem lineOfTrace_append (tr : List Event) (e : Event) (p : Nat) :
    lineOfTrace (tr ++ [e]) p = lineAfter p (lineOfTrace tr p) e := by
  rw [lineOfTrace, lineOfTrace, List.foldl_append, List.foldl_cons, List.foldl_nil]

/-- An action that changes each line as its event says keeps the lines at what the trace made them. -/
theorem linesFollowTrace_of_event {s t : State} (e : Event) (hs : LinesFollowTrace s)
    (htrace : t.trace = s.trace ++ [e])
    (hline : ∀ p, lineAt t.lines p = lineAfter p (lineAt s.lines p) e) : LinesFollowTrace t := by
  intro p
  rw [htrace, lineOfTrace_append, ← hs p, hline]

theorem lineAt_pinMode (p : Pin) (m : Dir) (s : State) (q : Nat) :
    lineAt (pinMode p m s).lines q = lineAfter q (lineAt s.lines q) (.mode p m) := by
  rw [pinMode_lines, lineAt_setLine, lineAfter]
  by_cases h : p.toNat = q
  · rw [if_pos h, if_pos h.symm, h]
  · rw [if_neg h, if_neg (Ne.symm h)]

theorem lineAt_pinWrite (p : Pin) (v : Bool) (s : State) (q : Nat) :
    lineAt (pinWrite p v s).lines q = lineAfter q (lineAt s.lines q) (.write p v) := by
  rw [pinWrite_lines, lineAt_setLine, lineAfter]
  by_cases h : p.toNat = q
  · rw [if_pos h, if_pos h.symm, h]
  · rw [if_neg h, if_neg (Ne.symm h)]

theorem LineActions.linesFollowTrace {ps : List Pin} {s t : State} (h : LineActions ps s t)
    (hs : LinesFollowTrace s) : LinesFollowTrace t := by
  induction h with
  | refl => exact hs
  | mode p m _ _ ih =>
    exact ih (linesFollowTrace_of_event _ hs (pinMode_trace _ _ _) (lineAt_pinMode p m _))
  | write p v _ _ ih =>
    exact ih (linesFollowTrace_of_event _ hs (pinWrite_trace _ _ _) (lineAt_pinWrite p v _))
  | sample p _ _ ih => exact ih (linesFollowTrace_of_event _ hs (pinSample_trace _ _) fun _ => rfl)
  | wait n _ ih => exact ih (linesFollowTrace_of_event _ hs (waitFor_trace _ _) fun _ => rfl)
  | registers _ _ _ _ _ _ _ _ _ ih => exact ih hs

/-- Every write of a line leaves its event. -/
theorem linesFollowTrace_closed : StepClosed LinesFollowTrace where
  host _ _ hs := hs
  reset _ _ _ := rfl
  refuse _ _ hs := hs
  exec i s t hs h := by
    rcases exec_cases h with ⟨r, rfl⟩ | ⟨p, -, -, hact, -⟩ | ⟨role, pin, -, -, rfl⟩ | ⟨c, -, rfl⟩
    · exact hs
    · exact hact.linesFollowTrace hs
    · exact hs
    · exact hs

/-- Settles O40, by induction on the line actions of a command. -/
theorem stepKeepsLinesFollowTrace : Obligations.StepKeepsLinesFollowTrace := fun _ _ =>
  linesFollowTrace_closed.step

/-! ### The engine and ERR -/

/-- Every command ends with `BUSY` and the sequencer position at 0. -/
theorem engineIdle_closed : StepClosed EngineIdle where
  host _ _ hs := hs
  reset _ _ := ⟨rfl, rfl⟩
  refuse _ _ _ := ⟨rfl, rfl⟩
  exec i s t _ h := by
    rcases exec_cases h with ⟨r, rfl⟩ | ⟨p, -, -, -, hidle⟩ | ⟨role, pin, -, -, rfl⟩ | ⟨c, -, rfl⟩
    · exact ⟨rfl, rfl⟩
    · exact hidle
    · exact ⟨rfl, rfl⟩
    · exact ⟨rfl, rfl⟩

/-- Settles O41: every end of a command clears both. -/
theorem stepKeepsEngineIdle : Obligations.StepKeepsEngineIdle := fun _ _ => engineIdle_closed.step

theorem errMarksRefusals_refusedState (r : RefuseReason) (s : State) :
    ErrMarksRefusals (refusedState r s) := by
  simp [ErrMarksRefusals, refusedState]

/-- `ERR` and the record change together. -/
theorem errMarksRefusals_closed : StepClosed ErrMarksRefusals where
  host _ _ hs := hs
  reset s _ := by simp [ErrMarksRefusals]
  refuse r s _ := errMarksRefusals_refusedState r s
  exec i s t hs h := by
    rcases exec_refused_or_errSame h with ⟨r, rfl⟩ | ⟨herr, hreasons⟩
    · exact errMarksRefusals_refusedState r s
    · rw [ErrMarksRefusals, herr, hreasons]
      exact hs

/-- Settles O42: a refusal sets the one and adds to the other. -/
theorem stepKeepsErrMarksRefusals : Obligations.StepKeepsErrMarksRefusals := fun _ _ =>
  errMarksRefusals_closed.step

/-! ### All of them, in every reachable state -/

/-- Settles O43: nothing is bound, listed, traced or recorded. -/
theorem resetMeetsTheInvariants : Obligations.ResetMeetsTheInvariants := fun c =>
  { bindings := fun r => .inl (bindingOf_resetWith c r)
    lines := ⟨linesWf_reset c, nofun⟩
    trace := fun _ => rfl
    idle := ⟨rfl, rfl⟩
    err := by simp [ErrMarksRefusals, State.resetWith] }

/-- Every step keeps all five invariants. -/
theorem stateInv_step {s t : State} (hs : StateInv s) (h : step s = .next t) : StateInv t :=
  { bindings := bindingsLegal_closed.step hs.bindings h
    lines := linesLegal_closed.step hs.lines h
    trace := linesFollowTrace_closed.step hs.trace h
    idle := engineIdle_closed.step hs.idle h
    err := errMarksRefusals_closed.step hs.err h }

/-- The invariants say nothing of the host's inputs and the answers. -/
theorem stateInv_inputs {s : State} (hs : StateInv s) (h : List HostInput) (a : List Bool) :
    StateInv { s with host := h, answers := a } :=
  { bindings := hs.bindings, lines := hs.lines, trace := hs.trace, idle := hs.idle, err := hs.err }

/-- No command writes the configuration record (`10_state.md` R23). -/
theorem exec_cfg_eq {i : Instr} {s t : State} (h : exec i s = .next t) : t.cfg = s.cfg := by
  rcases exec_cases h with ⟨r, rfl⟩ | ⟨p, -, -, hact, -⟩ | ⟨role, pin, -, -, rfl⟩ | ⟨c, -, rfl⟩
  · rfl
  · exact hact.unchanged.1
  · rfl
  · rfl


theorem cfg_closed (c : Config) : StepClosed fun s => s.cfg = c where
  host _ _ hs := hs
  reset _ hs := hs
  refuse _ _ hs := hs
  exec _ _ _ hs h := (exec_cfg_eq h).trans hs

/-- Settles O44, by induction on how the state is reached. -/
theorem reachableStatesMeetTheInvariants : Obligations.ReachableStatesMeetTheInvariants := by
  intro c s hreach
  induction hreach with
  | reset => exact ⟨resetMeetsTheInvariants c, rfl⟩
  | inputs s h a _ ih => exact ⟨stateInv_inputs ih.1 h a, ih.2⟩
  | next s t _ hstep ih => exact ⟨stateInv_step ih.1 hstep, (cfg_closed c).step ih.2 hstep⟩

/-! ### No reachable state stops -/

/-- The pins `LineCheck` names are bound, so legal bindings make them eligible. -/
theorem missingPin_eq_none {s : State} {p : Pins} (hbind : BindingsLegal s) (h : lineCheck s.bind = .ok p) :
    missingPin s.cfg p = none := by
  rw [missingPin_none_iff]
  obtain ⟨htck, htms, htdo, -, rfl⟩ := (lineCheck_ok_iff s.bind p).mp h
  have bound (r : Role) (hr : bindingOf s.bind r ≠ pinNone) :
      isEligible s.cfg (bindingOf s.bind r) = true :=
    (hbind r).resolve_left hr
  intro q hq
  rw [mem_pinList] at hq
  simp only [pinsOf, Option.ite_none_left_eq_some, Option.some.injEq] at hq
  rcases hq with rfl | rfl | rfl | ⟨htdi, rfl⟩
  · exact bound .tck htck
  · exact bound .tms htms
  · exact bound .tdo htdo
  · exact bound .tdi htdi

/-- With legal bindings every command answers a next state. -/
theorem exec_total (i : Instr) {s : State} (hbind : BindingsLegal s) : ∃ t, exec i s = .next t := by
  rcases exec_next_or_lineCommand i s with hnext | ⟨body, hexec⟩
  · exact hnext
  · rw [hexec]
    cases hcheck : lineCheck s.bind with
    | error r => exact ⟨_, lineCommand_refused hcheck body⟩
    | ok p => exact ⟨_, lineCommand_ready ⟨hcheck, missingPin_eq_none hbind hcheck⟩ body⟩

/-- A step from legal bindings and a legal configuration answers a next state. -/
theorem step_total {s : State} (hwf : s.cfg.wf = true) (hbind : BindingsLegal s) :
    ∃ t, step s = .next t := by
  cases hhost : s.host with
  | nil => exact ⟨s, (nothingAcceptedNothingChanges s hwf).1 hhost⟩
  | cons input rest =>
    cases input with
    | reset => exact ⟨_, step_reset hwf hhost⟩
    | command w =>
      cases hbusy : s.busy with
      | true => exact ⟨s, (nothingAcceptedNothingChanges s hwf).2 w rest hhost hbusy⟩
      | false =>
        cases hdec : decode w with
        | error r => exact ⟨_, step_of_decode_error hwf hbusy hhost hdec⟩
        | ok i =>
          rw [step_of_decode_ok hwf hbusy hhost hdec]
          exact exec_total i (s := { s with host := rest }) hbind

/-- Settles O45: only a bound pin that does not exist could stop a step, and reachable bindings are legal. -/
theorem reachableStatesNeverStop : Obligations.ReachableStatesNeverStop := by
  intro c s hwf hreach
  obtain ⟨hinv, rfl⟩ := reachableStatesMeetTheInvariants c s hreach
  exact step_total hwf hinv.bindings

end Sys2Proof.Machine
end

section
/-!
PROOF. A command touches bound pins only (`20_memory.md` R41).
-/

namespace Sys2Proof.Machine

/-- From `s` to `t` the trace grew by events that do not name pin `q`, and the line of `q` is unchanged. -/
structure Untouched (q : Pin) (s t : State) : Prop where
  events : ∃ evs, t.trace = s.trace ++ evs ∧ ∀ e ∈ evs, eventPin e ≠ some q
  dir : dirAt t q = dirAt s q
  outv : outvAt t q = outvAt s q

namespace Untouched

/-- No event, and no line changed. -/
theorem of_same {q : Pin} {s t : State} (htrace : t.trace = s.trace) (hlines : t.lines = s.lines) :
    Untouched q s t where
  events := ⟨[], by rw [htrace, List.append_nil], nofun⟩
  dir := by rw [dirAt, dirAt, hlines]
  outv := by rw [outvAt, outvAt, hlines]

/-- One event that names another pin or none. -/
theorem of_event {q : Pin} {s t : State} (e : Event) (htrace : t.trace = s.trace ++ [e])
    (he : eventPin e ≠ some q) (hdir : dirAt t q = dirAt s q) (houtv : outvAt t q = outvAt s q) :
    Untouched q s t where
  events := ⟨[e], htrace, by simpa using he⟩
  dir := hdir
  outv := houtv

theorem trans {q : Pin} {s t u : State} (h : Untouched q s t) (k : Untouched q t u) : Untouched q s u where
  events := by
    obtain ⟨es, hes, hesq⟩ := h.events
    obtain ⟨fs, hfs, hfsq⟩ := k.events
    refine ⟨es ++ fs, by rw [hfs, hes, List.append_assoc], fun e he => ?_⟩
    exact (List.mem_append.mp he).elim (hesq e) (hfsq e)
  dir := k.dir.trans h.dir
  outv := k.outv.trans h.outv

end Untouched

/-- Line actions on the pins `ps` touch no other pin. -/
theorem LineActions.untouched {ps : List Pin} {s t : State} (h : LineActions ps s t) {q : Pin}
    (hq : q ∉ ps) : Untouched q s t := by
  have other {p : Pin} (hp : p ∈ ps) : p ≠ q := fun hpq => hq (hpq ▸ hp)
  have unnamed {p : Pin} (hp : p ∈ ps) : some p ≠ some q := fun hpq => other hp (Option.some.inj hpq)
  induction h with
  | refl => exact .of_same rfl rfl
  | mode p m hp _ ih =>
    refine Untouched.trans (.of_event _ (pinMode_trace _ _ _) (unnamed hp) ?_ (outvAt_pinMode p q m _)) ih
    rw [dirAt_pinMode, if_neg (other hp).symm]
  | write p v hp _ ih =>
    refine Untouched.trans (.of_event _ (pinWrite_trace _ _ _) (unnamed hp) (dirAt_pinWrite p q v _) ?_) ih
    rw [outvAt_pinWrite, if_neg (other hp).symm]
  | sample p hp _ ih => exact .trans (.of_event _ (pinSample_trace _ _) (unnamed hp) rfl rfl) ih
  | wait n _ ih => exact .trans (.of_event _ (waitFor_trace _ _) nofun rfl rfl) ih
  | registers _ _ _ _ _ _ _ _ _ ih =>
    refine Untouched.trans ?_ ih
    exact .of_same rfl rfl

/-- The pins of a command that starts are bound to roles. -/
theorem exists_role_of_mem_pinList {b : Bindings} {p : Pins} (h : lineCheck b = .ok p) {q : Pin}
    (hq : q ∈ pinList p) : ∃ r, bindingOf b r = q := by
  rcases lineCheck_bound h hq with rfl | rfl | rfl | rfl
  · exact ⟨.tck, rfl⟩
  · exact ⟨.tms, rfl⟩
  · exact ⟨.tdo, rfl⟩
  · exact ⟨.tdi, rfl⟩

/-- A command leaves every pin untouched that no role is bound to. -/
theorem exec_untouched {i : Instr} {s t : State} {q : Pin} (h : exec i s = .next t)
    (hq : ∀ r, bindingOf s.bind r ≠ q) : Untouched q s t := by
  rcases exec_cases h with ⟨r, rfl⟩ | ⟨p, -, hready, hact, -⟩ | ⟨role, pin, -, -, rfl⟩ | ⟨c, -, rfl⟩
  · exact .of_same rfl rfl
  · refine hact.untouched fun hmem => ?_
    obtain ⟨r, hr⟩ := exists_role_of_mem_pinList hready.1 hmem
    exact hq r hr
  · exact .of_same rfl rfl
  · exact .of_same rfl rfl

/-- Settles O47, by induction on the line actions of a command. -/
theorem onlyBoundPinsAreTouched : Obligations.OnlyBoundPinsAreTouched := fun _ _ _ _ h hq =>
  have untouched := exec_untouched h hq
  ⟨untouched.events, untouched.dir, untouched.outv⟩

end Sys2Proof.Machine
end

section
/-!
PROOF. No sample steers the events of a command other than `BYP` (`41_protocol.md` R129).
-/

namespace Sys2Proof.Machine

/-! ### The lines after cycles depend on the lines before only -/

theorem cycle_lines_congr {s u : State} (h : u.lines = s.lines) (p : Pins) (tms tdi : Bool) :
    (cycle p tms tdi u).lines = (cycle p tms tdi s).lines := by
  obtain ⟨ck, ms, dO, di⟩ := p
  cases di with
  | none => simp [cycle, onTdi, h]
  | some d => simp [cycle, onTdi, h]

theorem runCycles_lines_congr {s u : State} (h : u.lines = s.lines) (p : Pins) (cs : List (Bool × Bool)) :
    (runCycles p cs u).lines = (runCycles p cs s).lines := by
  induction cs generalizing s u with
  | nil => exact h
  | cons c cs ih => exact ih (cycle_lines_congr h p c.1 c.2)

theorem cfgBody_lines_congr {s u : State} (h : u.lines = s.lines) (p : Pins) :
    (cfgBody p u).lines = (cfgBody p s).lines := by
  obtain ⟨ck, ms, dO, di⟩ := p
  cases di with
  | none => simp [cfgBody, onTdi, h]
  | some d => simp [cfgBody, onTdi, h]

theorem relBody_lines_congr {s u : State} (h : u.lines = s.lines) (p : Pins) :
    (relBody p u).lines = (relBody p s).lines := by
  obtain ⟨ck, ms, dO, di⟩ := p
  cases di with
  | none => simp [relBody, onTdi, h]
  | some d => simp [relBody, onTdi, h]

/-! ### The events of cycles but for the samples -/

theorem cycleEvents_withoutSample (c : Config) (p : Pins) (tms tdi a b : Bool) :
    (cycleEvents c p tms tdi a).map withoutSample = (cycleEvents c p tms tdi b).map withoutSample := by
  simp [cycleEvents, withoutSample]

theorem cyclesEvents_withoutSample (c : Config) (p : Pins) (cs : List (Bool × Bool)) {as bs : List Bool}
    (ha : as.length = cs.length) (hb : bs.length = cs.length) :
    (cyclesEvents c p cs as).map withoutSample = (cyclesEvents c p cs bs).map withoutSample := by
  induction cs generalizing as bs with
  | nil => rfl
  | cons d cs ih =>
    obtain ⟨a, as, rfl⟩ := List.exists_cons_of_length_eq_add_one ha
    obtain ⟨b, bs, rfl⟩ := List.exists_cons_of_length_eq_add_one hb
    rw [cyclesEvents_cons, cyclesEvents_cons, List.map_append, List.map_append,
      cycleEvents_withoutSample c p d.1 d.2 a b, ih (Nat.succ.inj ha) (Nat.succ.inj hb)]

/-! ### States that agree but for samples -/

/-- `s` and `u` agree on the lines, on what steers a command, and on the events but for the sampled bits. -/
structure AgreeButSamples (s u : State) : Prop where
  lines : u.lines = s.lines
  cfg : u.cfg = s.cfg
  bind : u.bind = s.bind
  err : u.err = s.err
  events : u.trace.map withoutSample = s.trace.map withoutSample

namespace AgreeButSamples

theorem symm {s u : State} (h : AgreeButSamples s u) : AgreeButSamples u s :=
  ⟨h.lines.symm, h.cfg.symm, h.bind.symm, h.err.symm, h.events.symm⟩

theorem trans {s u v : State} (h : AgreeButSamples s u) (k : AgreeButSamples u v) : AgreeButSamples s v :=
  ⟨k.lines.trans h.lines, k.cfg.trans h.cfg, k.bind.trans h.bind, k.err.trans h.err,
    k.events.trans h.events⟩

theorem of_sameButRegisters {u v : State} (h : SameButRegisters u v) : AgreeButSamples u v := by
  rw [SameButRegisters] at h
  rw [h]
  exact ⟨rfl, rfl, rfl, rfl, rfl⟩

theorem accepted (s : State) : AgreeButSamples s (accepted s) := ⟨rfl, rfl, rfl, rfl, rfl⟩

/-- Ending a command keeps what agrees. -/
theorem completed (s : State) : AgreeButSamples s (completed s) := ⟨rfl, rfl, rfl, rfl, rfl⟩

theorem dropWork (s : State) : AgreeButSamples s (dropWork s) := ⟨rfl, rfl, rfl, rfl, rfl⟩

theorem setRes (v : Word) (s : State) : AgreeButSamples s (setRes v s) := ⟨rfl, rfl, rfl, rfl, rfl⟩

theorem shiftBody (p : Pins) (tmsWord tdiWord : Word) (w : Nat) (s : State) :
    AgreeButSamples (runCycles p (wordCycles tmsWord tdiWord w) s) (shiftBody p tmsWord tdiWord w s) := by
  rw [shiftBody_eq]
  exact ⟨rfl, rfl, rfl, rfl, rfl⟩

/-- Runs of the same cycles agree, whatever is sampled. -/
theorem runCycles {s u : State} (h : AgreeButSamples s u) (p : Pins) (cs : List (Bool × Bool)) :
    AgreeButSamples (runCycles p cs s) (runCycles p cs u) where
  lines := runCycles_lines_congr h.lines p cs
  cfg := by rw [runCycles_cfg, runCycles_cfg, h.cfg]
  bind := by rw [(WorkFrame.runCycles p cs u).bind, (WorkFrame.runCycles p cs s).bind, h.bind]
  err := by rw [(WorkFrame.runCycles p cs u).err, (WorkFrame.runCycles p cs s).err, h.err]
  events := by
    rw [runCycles_trace, runCycles_trace, List.map_append, List.map_append, h.events, h.cfg,
      cyclesEvents_withoutSample s.cfg p cs (answersFrom_length u 0 _) (answersFrom_length s 0 _)]

theorem cfgBody {s u : State} (h : AgreeButSamples s u) (p : Pins) :
    AgreeButSamples (cfgBody p s) (cfgBody p u) where
  lines := cfgBody_lines_congr h.lines p
  cfg := by rw [cfgBody_cfg, cfgBody_cfg, h.cfg]
  bind := by rw [(WorkFrame.cfgBody p u).bind, (WorkFrame.cfgBody p s).bind, h.bind]
  err := by rw [(WorkFrame.cfgBody p u).err, (WorkFrame.cfgBody p s).err, h.err]
  events := by rw [cfgBody_trace, cfgBody_trace, List.map_append, List.map_append, h.events]

theorem relBody {s u : State} (h : AgreeButSamples s u) (p : Pins) :
    AgreeButSamples (relBody p s) (relBody p u) where
  lines := relBody_lines_congr h.lines p
  cfg := by
    rw [relBody_frame p u, relBody_frame p s]
    exact h.cfg
  bind := by
    rw [relBody_frame p u, relBody_frame p s]
    exact h.bind
  err := by
    rw [relBody_frame p u, relBody_frame p s]
    exact h.err
  events := by rw [relBody_trace, relBody_trace, List.map_append, List.map_append, h.events]

theorem rdidBody {s u : State} (h : AgreeButSamples s u) (p : Pins) :
    AgreeButSamples (rdidBody p s) (rdidBody p u) := by
  have cycles : AgreeButSamples
      (Machine.runCycles p (rdidCycles s.cfg) (Machine.cfgBody p s))
      (Machine.runCycles p (rdidCycles u.cfg) (Machine.cfgBody p u)) := by
    rw [h.cfg]
    exact (h.cfgBody p).runCycles p _
  exact (of_sameButRegisters (sameButRegisters_rdidBody p s)).symm.trans
    (cycles.trans (of_sameButRegisters (sameButRegisters_rdidBody p u)))

/-- A body whose runs agree makes a line-touching command whose runs agree. -/
theorem lineCommand {s u t : State} (h : AgreeButSamples s u) {body : Pins → State → State}
    (hbody : ∀ p s u, AgreeButSamples s u → AgreeButSamples (body p s) (body p u))
    (hexec : lineCommand body s = .next t) :
    ∃ v, Machine.lineCommand body u = .next v ∧ AgreeButSamples t v := by
  rcases lineCommand_cases hexec with ⟨r, hcheck, rfl⟩ | ⟨p, ⟨hcheck, hmissing⟩, rfl⟩
  · refine ⟨_, lineCommand_refused (h.bind ▸ hcheck) body, ?_⟩
    exact ⟨h.lines, h.cfg, h.bind, rfl, h.events⟩
  · refine ⟨_, lineCommand_ready ⟨h.bind ▸ hcheck, h.cfg ▸ hmissing⟩ body, ?_⟩
    have start : AgreeButSamples (Machine.accepted s) (Machine.accepted u) :=
      (accepted s).symm.trans (h.trans (accepted u))
    exact (completed _).symm.trans ((hbody p _ _ start).trans (completed _))

end AgreeButSamples

/-- Every command but `BYP` runs alike from states that agree but for samples. -/
theorem exec_agreeButSamples {i : Instr} {s u t : State} (hi : i ≠ .byp) (h : AgreeButSamples s u)
    (hexec : exec i s = .next t) : ∃ v, exec i u = .next v ∧ AgreeButSamples t v := by
  have dropped {s u : State} (h : AgreeButSamples s u) : AgreeButSamples (dropWork s) (dropWork u) :=
    (AgreeButSamples.dropWork s).symm.trans (h.trans (.dropWork u))
  have result {s u : State} (v w : Word) (h : AgreeButSamples s u) :
      AgreeButSamples (setRes v s) (setRes w u) :=
    (AgreeButSamples.setRes v s).symm.trans (h.trans (.setRes w u))
  cases i with
  | wrb tms tdi =>
    simp only [exec, execWrb] at hexec ⊢
    refine h.lineCommand (fun p s u h => dropped ?_) hexec
    exact result _ _ (h.runCycles p [(tms, tdi)])
  | shift tmsWord tdiWord width =>
    simp only [exec, execShift] at hexec ⊢
    split at hexec
    · next hwide =>
      rw [if_pos hwide]
      cases hexec
      exact ⟨_, rfl, h.lines, h.cfg, h.bind, rfl, h.events⟩
    · next hwidth =>
      rw [if_neg hwidth]
      refine h.lineCommand (fun p s u h => dropped (result _ _ ?_)) hexec
      exact (AgreeButSamples.shiftBody p _ _ _ s).symm.trans
        ((h.runCycles p _).trans (.shiftBody p _ _ _ u))
  | rst =>
    refine h.lineCommand (fun p s u h => dropped ?_) hexec
    rw [rstBody, rstBody, h.cfg]
    exact h.runCycles p _
  | cfg => exact h.lineCommand (fun p s u h => h.cfgBody p) hexec
  | rel => exact h.lineCommand (fun p s u h => h.relBody p) hexec
  | rdid => exact h.lineCommand (fun p s u h => dropped (h.rdidBody p)) hexec
  | byp => exact absurd rfl hi
  | acc code =>
    cases hexec
    exact ⟨_, rfl, h.lines, h.cfg, h.bind, h.err, h.events⟩
  | bind role pin =>
    simp only [exec, execBind, h.cfg] at hexec ⊢
    split at hexec
    · next hlegal =>
      rw [if_pos hlegal]
      cases hexec
      refine ⟨_, rfl, h.lines, h.cfg, ?_, h.err, h.events⟩
      exact congrArg (setBinding · role pin) h.bind
    · next hillegal =>
      rw [if_neg hillegal]
      cases hexec
      exact ⟨_, rfl, h.lines, h.cfg, h.bind, rfl, h.events⟩

/-- Settles O46: the two states differ in the answers alone, so they agree but for samples. -/
theorem samplesDoNotSteerEvents : Obligations.SamplesDoNotSteerEvents := by
  intro i s t answers reads hi hexec
  have start : AgreeButSamples s { s with answers := answers, reads := reads } :=
    ⟨rfl, rfl, rfl, rfl, rfl⟩
  obtain ⟨u, hu, agree⟩ := exec_agreeButSamples hi start hexec
  exact ⟨u, hu, agree.events, agree.lines, agree.bind, agree.err⟩

end Sys2Proof.Machine
end

section
/-!
PROOF. The plausibility check `accept` (`42_idcode_validator.md` R140, R142), over the code as a number.
-/

namespace Sys2Proof.Machine

/-! ### Counting ones and zeros -/

/-- A count along `range` is the size of a set of places. -/
theorem countP_range_eq_card (n : Nat) (f : Nat → Bool) :
    (List.range n).countP f = (Finset.univ.filter (fun i : Fin n => f i.val = true)).card := by
  calc (List.range n).countP f = ((List.finRange n).map Fin.val).countP f := by
        rw [List.map_coe_finRange_eq_range]
    _ = ((List.finRange n).filter (fun i => f i.val)).length := by
        rw [List.countP_map, List.countP_eq_length_filter]
        rfl
    _ = (Finset.univ.filter (fun i : Fin n => f i.val = true)).card := by
        simp [Finset.card_def, Fin.univ_def]

theorem popcount_eq_card (v : Word) :
    popcount v = (Finset.univ.filter (fun i : Fin 32 => v.getLsbD i.val = true)).card :=
  countP_range_eq_card 32 v.getLsbD

theorem popcount_not_eq_card (v : Word) :
    popcount (~~~v) = (Finset.univ.filter (fun i : Fin 32 => v.getLsbD i.val = false)).card := by
  rw [popcount_eq_card]
  congr 1
  refine Finset.filter_congr fun i _ => ?_
  simp [i.isLt]

/-- Every bit is a one or a zero. -/
theorem popcount_add_popcount_not (v : Word) : popcount v + popcount (~~~v) = 32 := by
  have split := Finset.card_filter_add_card_filter_not (s := (Finset.univ : Finset (Fin 32)))
    (fun i => v.getLsbD i.val = true)
  simpa [popcount_eq_card, popcount_not_eq_card] using split

/-! ### Fields as numbers -/

theorem extractLsb'_ne_ofNat_iff (v : Word) (lo n k : Nat) (hk : k < 2 ^ n) :
    v.extractLsb' lo n ≠ BitVec.ofNat n k ↔ v.toNat / 2 ^ lo % 2 ^ n ≠ k := by
  rw [Ne, ← BitVec.toNat_inj, BitVec.extractLsb'_toNat, Nat.shiftRight_eq_div_pow, BitVec.toNat_ofNat,
    Nat.mod_eq_of_lt hk]

theorem getLsbD_zero_iff (v : Word) : v.getLsbD 0 = true ↔ v.toNat % 2 = 1 := by
  rw [← BitVec.testBit_toNat, Nat.testBit_zero, decide_eq_true_eq]

/-- The version field is the top of the word: nothing is cut off above it. -/
theorem versionField_ne_iff (v : Word) : versionField v ≠ 0xF#4 ↔ v.toNat / 2 ^ 28 ≠ 0xF := by
  have top : v.toNat / 2 ^ 28 < 2 ^ 4 := by
    have := v.isLt
    omega
  rw [versionField, extractLsb'_ne_ofNat_iff v 28 4 0xF (by decide), Nat.mod_eq_of_lt top]

/-- The conjunction of R140, in the model's words. -/
theorem accept_iff (code : Word) :
    accept code = true ↔ code.getLsbD 0 = true
      ∧ (mfrField code ≠ 0#11 ∧ mfrField code ≠ 0x7FF#11)
      ∧ (partField code ≠ 0#16 ∧ partField code ≠ 0xFFFF#16)
      ∧ versionField code ≠ 0xF#4 ∧ 10 ≤ popcount code ∧ 10 ≤ popcount (~~~code) := by
  simp only [accept, Bool.and_eq_true, bne_iff_ne, decide_eq_true_eq, and_assoc]

/-- Settles O18: each of the model's conditions is its condition over the number. -/
theorem acceptRule : Obligations.AcceptRule := by
  intro code
  rw [accept_iff, getLsbD_zero_iff, mfrField, partField, versionField_ne_iff, ← popcount_eq_card,
    ← popcount_not_eq_card, extractLsb'_ne_ofNat_iff code 1 11 0 (by decide),
    extractLsb'_ne_ofNat_iff code 1 11 0x7FF (by decide),
    extractLsb'_ne_ofNat_iff code 12 16 0 (by decide),
    extractLsb'_ne_ofNat_iff code 12 16 0xFFFF (by decide), Nat.pow_one]

/-! ### Consequences -/

theorem accept_zero : accept 0x00000000#32 = false := by decide

theorem accept_allOnes : accept 0xFFFFFFFF#32 = false := by decide

/-- Without bit 0 no code is accepted. -/
theorem accept_eq_false_of_bit_zero {code : Word} (h : code.getLsbD 0 = false) : accept code = false := by
  rw [Bool.eq_false_iff]
  intro haccept
  rw [((accept_iff code).mp haccept).1] at h
  cases h

/-- Settles O19: ones and zeros are 32 together, and without bit 0 no code is accepted. -/
theorem acceptConsequences : Obligations.AcceptConsequences := by
  refine ⟨accept_zero, accept_allOnes, fun code haccept => ?_⟩
  obtain ⟨hbit, -, -, -, hones, hzeros⟩ := (accept_iff code).mp haccept
  have atMost : popcount code ≤ 22 := by
    have := popcount_add_popcount_not code
    omega
  refine ⟨hbit, hones, atMost, accept_eq_false_of_bit_zero (by simp [hbit]), ?_, ?_⟩
  · rintro rfl
    cases accept_zero.symm.trans haccept
  · rintro rfl
    cases accept_allOnes.symm.trans haccept

end Sys2Proof.Machine
end

section
/-!
PROOF. `CFG` and `REL` (`40_transport.md` R92, R93), and the lines after a release
(`70_reset_and_hazards.md` R218).
-/

namespace Sys2Proof.Machine

theorem exec_cfg_ready {s : State} {p : Pins} (h : LinesReady s p) :
    exec .cfg s = .next (completed (cfgBody p (accepted s))) := by
  rw [exec, execCfg, lineCommand_ready h]

theorem exec_rel_ready {s : State} {p : Pins} (h : LinesReady s p) :
    exec .rel s = .next (completed (relBody p (accepted s))) := by
  rw [exec, execRel, lineCommand_ready h]

theorem cfgBody_operationLines {p : Pins} (hp : PinsDistinct p) (s : State) :
    OperationLines p false s (cfgBody p s) := by
  refine operationLines_of_cycleLines hp
    ⟨fun _ => rfl, ?_, ?_, rfl, fun di hdi => ?_, fun _ _ => ⟨rfl, rfl⟩⟩
  · simp [outvAt_cfgBody]
  · simp [outvAt_cfgBody]
  · simp [outvAt_cfgBody, hdi]

/-- Settles O20: the command is the body of `CFG`. -/
theorem cfgRule : Obligations.CfgRule := by
  intro s
  refine ⟨fun r => exec_refused_of_lineCheck rfl rfl,
    fun p hready => ⟨_, exec_cfg_ready hready, ?trace, ?lines, ?frame⟩⟩
  case trace => exact cfgBody_trace p (accepted s)
  case lines => exact cfgBody_operationLines (lineCheck_distinct hready.1) (accepted s)
  case frame =>
    rw [LinesFrame, cfgBody_frame]
    rfl

/-- Settles O21: the command is the body of `REL`. -/
theorem relRule : Obligations.RelRule := by
  intro s
  refine ⟨fun r => exec_refused_of_lineCheck rfl rfl,
    fun p hready => ⟨_, exec_rel_ready hready, ?trace, ?bound, ?latches, ?others, ?frame⟩⟩
  case trace => exact relBody_trace p (accepted s)
  case bound => exact fun q hq => (dirAt_relBody p (accepted s) q).trans (if_pos hq)
  case latches => exact outvAt_relBody p (accepted s)
  case others =>
    exact fun q hq =>
      ⟨(dirAt_relBody p (accepted s) q).trans (if_neg hq), outvAt_relBody p (accepted s) q⟩
  case frame =>
    rw [LinesFrame, relBody_frame]
    rfl

/-! ### Driven pins -/

/-- In canonical form an entry is what its pin reads as. -/
theorem lineAt_of_mem {m : List (Nat × Line)} (hm : linesWf m = true) {e : Nat × Line} (he : e ∈ m) :
    lineAt m e.1 = e.2 := by
  have rising := ((linesWf_iff m).mp hm).1
  clear hm
  induction m with
  | nil => cases he
  | cons d m ih =>
    obtain ⟨q, l⟩ := d
    obtain ⟨hhead, htail⟩ := List.pairwise_cons.mp rising
    rcases List.mem_cons.mp he with rfl | he
    · rw [lineAt_cons, if_pos rfl]
    · rw [lineAt_cons, if_neg (hhead e he).ne', ih he htail]

/-- In canonical form the driven pins are those whose line reads other than `IN`. -/
theorem mem_drivenPins_iff {s : State} (hs : linesWf s.lines = true) (n : Nat) :
    n ∈ drivenPins s ↔ (lineAt s.lines n).dir ≠ .inp := by
  constructor
  · intro hn
    simp only [drivenPins, List.mem_map, List.mem_filter, decide_eq_true_eq] at hn
    obtain ⟨e, ⟨he, hdir⟩, rfl⟩ := hn
    rwa [lineAt_of_mem hs he]
  · intro hdir
    have listed : ∃ e ∈ s.lines, e.1 = n := by
      by_contra hnone
      push Not at hnone
      exact hdir (by rw [lineAt_of_not_listed hnone, idleLine])
    obtain ⟨e, he, rfl⟩ := listed
    rw [lineAt_of_mem hs he] at hdir
    simp only [drivenPins, List.mem_map, List.mem_filter, decide_eq_true_eq]
    exact ⟨e, ⟨he, hdir⟩, rfl⟩

/-- Line actions keep the pin space canonical, whatever is eligible. -/
theorem LineActions.keeps_linesWf {ps : List Pin} {s t : State} (h : LineActions ps s t)
    (hs : linesWf s.lines = true) : linesWf t.lines = true := by
  induction h with
  | refl => exact hs
  | mode p m _ _ ih => exact ih (linesWf_setLine _ _ hs)
  | write p v _ _ ih => exact ih (linesWf_setLine _ _ hs)
  | sample p _ _ ih => exact ih hs
  | wait n _ ih => exact ih hs
  | registers _ _ _ _ _ _ _ _ _ ih => exact ih hs

/-- Line actions leave every line alone whose pin is none of theirs. -/
theorem LineActions.lineAt_other {ps : List Pin} {s t : State} (h : LineActions ps s t) {n : Nat}
    (hn : ∀ q ∈ ps, q.toNat ≠ n) : lineAt t.lines n = lineAt s.lines n := by
  induction h with
  | refl => rfl
  | mode p m hp _ ih => exact ih.trans (lineAt_setLine_of_ne _ _ (hn p hp).symm)
  | write p v hp _ ih => exact ih.trans (lineAt_setLine_of_ne _ _ (hn p hp).symm)
  | sample p _ _ ih => exact ih
  | wait n _ ih => exact ih
  | registers _ _ _ _ _ _ _ _ _ ih => exact ih

/-- Every driven pin is one of the pins `p`. -/
def DrivenWithin (p : Pins) (s : State) : Prop := ∀ n ∈ drivenPins s, ∃ q ∈ pinList p, q.toNat = n

/-- After the body of `REL` no line is driven, if only its pins were. -/
theorem relBody_allPassive {p : Pins} {s : State} (hs : linesWf s.lines = true)
    (hdriven : DrivenWithin p s) : allPassive (relBody p s) := by
  have actions := LineActions.ofRelBody p s
  rw [allPassive, List.eq_nil_iff_forall_not_mem]
  intro n hn
  rw [mem_drivenPins_iff (actions.keeps_linesWf hs)] at hn
  by_cases bound : ∃ q ∈ pinList p, q.toNat = n
  · obtain ⟨q, hq, rfl⟩ := bound
    exact hn ((dirAt_relBody p s q).trans (if_pos hq))
  · rw [actions.lineAt_other fun q hq hqn => bound ⟨q, hq, hqn⟩, ← mem_drivenPins_iff hs] at hn
    exact bound (hdriven n hn)

/-- Settles O48: `REL` makes its own pins passive, and no other pin was driven. -/
theorem releaseLeavesLinesPassive : Obligations.ReleaseLeavesLinesPassive := fun s _ hready hwf hdriven =>
  ⟨_, exec_rel_ready hready, relBody_allPassive (s := accepted s) hwf hdriven⟩

end Sys2Proof.Machine
end

section
/-!
PROOF. What `BYP`, `RDID` and `SHIFT` measure (`41_protocol.md` R122 to R125, `49_target_environment.md`
R172 to R174).
-/

namespace Sys2Proof.Machine

/-! ### Known answers -/

/-- A list of known answers names each of them. -/
theorem answerAt_of_answersFrom_eq {s : State} {k n : Nat} {f : Nat → Bool}
    (h : answersFrom s k n = (List.range n).map f) {i : Nat} (hi : i < n) : answerAt s (k + i) = f i :=
  List.map_inj_left.mp h i (List.mem_range.mpr hi)

theorem RunFrame.reads_eq {n : Nat} {s t : State} (h : RunFrame n s t) : t.reads = s.reads + n :=
  congrArg State.reads h

theorem RunFrame.cfg_eq {n : Nat} {s t : State} (h : RunFrame n s t) : t.cfg = s.cfg :=
  (congrArg State.cfg h).trans rfl

theorem RunFrame.bind_eq {n : Nat} {s t : State} (h : RunFrame n s t) : t.bind = s.bind :=
  (congrArg State.bind h).trans rfl

theorem RunFrame.err_eq {n : Nat} {s t : State} (h : RunFrame n s t) : t.err = s.err :=
  (congrArg State.err h).trans rfl

theorem RunFrame.answers_eq {n : Nat} {s t : State} (h : RunFrame n s t) :
    t.answers = s.answers.drop n :=
  congrArg State.answers h

/-! ### Where the stream of BYP ends -/

/-- The first match, if it is within the budget, is where the stream ends. -/
theorem StreamEnds.of_first_match {pattern : Word} {x : Nat → Bool} {n c : Nat} {v : Word}
    (h : StreamEnds pattern x n v) (hpos : 1 ≤ c) (hbudget : c ≤ 1024) (hmatch : regAfter x c = pattern)
    (hfirst : ∀ j, j < c → regAfter x j ≠ pattern) : n = c ∧ v = BitVec.ofNat 32 (c - 32) := by
  have notLater : n ≤ c := by
    by_contra hlt
    exact h.noEarlierMatch c hpos (not_le.mp hlt) hmatch
  rcases h.result with ⟨hn, hv⟩ | ⟨hn, hlast, -⟩
  · have notEarlier : ¬ n < c := fun hlt => hfirst n hlt hn
    obtain rfl : n = c := by omega
    exact ⟨rfl, hv⟩
  · obtain rfl : n = c := by omega
    exact absurd hmatch hn

/-- Without a match the stream runs its whole budget and the result is 0. -/
theorem StreamEnds.of_no_match {pattern : Word} {x : Nat → Bool} {n : Nat} {v : Word}
    (h : StreamEnds pattern x n v) (hnone : ∀ j, j ≤ 1024 → regAfter x j ≠ pattern) :
    n = 1024 ∧ v = 0#32 := by
  rcases h.result with ⟨hn, -⟩ | ⟨-, hlast, hv⟩
  · exact absurd hn (hnone n h.budget)
  · exact ⟨hlast, hv⟩

/-- The result is at most 992, whatever is sampled. -/
theorem StreamEnds.result_le {pattern : Word} {x : Nat → Bool} {n : Nat} {v : Word}
    (h : StreamEnds pattern x n v) : v.toNat ≤ 992 := by
  have hbudget := h.budget
  rcases h.result with ⟨-, rfl⟩ | ⟨-, -, rfl⟩
  · rw [BitVec.toNat_ofNat, Nat.mod_eq_of_lt (by omega)]
    omega
  · decide

/-- Settles O27: bit 0 needs 32 cycles, and the budget is 1024. -/
theorem bypResultIsALatency : Obligations.BypResultIsALatency := by
  intro s p hwf hready
  obtain ⟨t, n, hexec, ends, -⟩ := exec_byp_ready hready
  exact ⟨fun x j => regAfter_ne_of_lt (pattern_bit_zero_of_wf hwf) x, t, hexec, ends.result_le⟩

/-! ### The echo stub -/

/-- While the samples that reached bit 0 are zeros, a pattern with bit 0 set does not match. -/
theorem regAfter_ne_of_zeros {pattern : Word} (hbit : pattern.getLsbD 0 = true) {x : Nat → Bool} {n : Nat}
    (hzeros : ∀ i, i < n → x i = false) {j : Nat} (hj : j < n + 32) : regAfter x j ≠ pattern := by
  rintro rfl
  rw [regAfter_getLsbD x j (by decide), Bool.and_eq_true, decide_eq_true_eq] at hbit
  obtain ⟨hreached, hone⟩ := hbit
  rw [hzeros _ (by omega)] at hone
  cases hone

/-- The pattern itself in the last 32 samples is a match. -/
theorem regAfter_eq_of_bits {pattern : Word} {x : Nat → Bool} {n : Nat}
    (hbits : ∀ i, i < 32 → x (n + i) = pattern.getLsbD i) : regAfter x (n + 32) = pattern := by
  refine BitVec.eq_of_getLsbD_eq fun i hi => ?_
  have reached : 32 ≤ i + (n + 32) := by omega
  have place : i + (n + 32) - 32 = n + i := by omega
  rw [regAfter_getLsbD x _ hi, decide_eq_true reached, Bool.true_and, place, hbits i hi]

/-- `n` zeros and then the pattern end the stream after `n + 32` cycles with result `n`. -/
theorem StreamEnds.of_echo {pattern : Word} {x : Nat → Bool} {m n : Nat} {v : Word}
    (h : StreamEnds pattern x m v) (hbit : pattern.getLsbD 0 = true) (hn : n ≤ 992)
    (hzeros : ∀ i, i < n → x i = false) (hbits : ∀ i, i < 32 → x (n + i) = pattern.getLsbD i) :
    m = n + 32 ∧ v = BitVec.ofNat 32 n := by
  have ends := h.of_first_match (c := n + 32) (by omega) (by omega) (regAfter_eq_of_bits hbits)
    fun j => regAfter_ne_of_zeros hbit hzeros
  rwa [Nat.add_sub_cancel] at ends

/-- Settles O28: up to 992 the echo ends the stream, above it the zeros last for the whole budget. -/
theorem bypReturnsTheEchoDelay : Obligations.BypReturnsTheEchoDelay := by
  intro s p n hwf hready hechoes
  rw [echoAnswers] at hechoes
  obtain ⟨t, m, hexec, ends, -⟩ := exec_byp_ready hready
  refine ⟨t, hexec, ?_⟩
  have hbit := pattern_bit_zero_of_wf hwf
  have echo (i : Nat) (hi : i < 1024) := answerAt_of_answersFrom_eq hechoes hi
  split
  · next hn =>
    refine (ends.of_echo hbit hn (fun i hi => ?_) fun i hi => ?_).2
    · rw [echo i (by omega), if_pos hi]
    · rw [echo (n + i) (by omega), if_neg (by omega), Nat.add_sub_cancel_left, Nat.mod_eq_of_lt hi]
  · next hn =>
    refine (ends.of_no_match fun j hj => ?_).2
    have zeros : ∀ i, i < 993 → answerAt s (rstCount s.cfg + 16 + i) = false := fun i hi => by
      rw [echo i (by omega), if_pos (by omega)]
    exact regAfter_ne_of_zeros hbit zeros (by omega)

/-! ### A stuck line -/

/-- A legal pattern is not all ones, as it differs from its rotation by 1 (`00_scope.md` R7). -/
theorem pattern_ne_allOnes_of_wf {c : Config} (h : c.wf = true) : c.pattern ≠ BitVec.allOnes 32 := by
  obtain ⟨-, -, -, -, -, -, hrotations⟩ := (wf_iff_configLegal c).mp h
  intro hones
  refine hrotations 1 le_rfl (by decide) ?_
  rw [hones]
  decide

/-- Equal samples never make a legal pattern: zeros lack its bit 0, ones are all ones. -/
theorem regAfter_ne_of_constant {c : Config} (hwf : c.wf = true) {x : Nat → Bool} {b : Bool}
    (hstuck : ∀ i, i < 1024 → x i = b) {j : Nat} (hj : j ≤ 1024) : regAfter x j ≠ c.pattern := by
  have hbit := pattern_bit_zero_of_wf hwf
  intro hmatch
  have reached : 32 ≤ j := not_lt.mp fun hlt => regAfter_ne_of_lt hbit x hlt hmatch
  have bits : ∀ i, i < 32 → c.pattern.getLsbD i = b := fun i hi => by
    have inside : 32 ≤ i + j := by omega
    rw [← hmatch, regAfter_getLsbD x j hi, decide_eq_true inside, Bool.true_and, hstuck _ (by omega)]
  have hb : b = true := (bits 0 (by decide)).symm.trans hbit
  refine pattern_ne_allOnes_of_wf hwf (BitVec.eq_of_getLsbD_eq fun i hi => ?_)
  rw [bits i hi, hb, BitVec.getLsbD_allOnes, decide_eq_true hi]

/-- Settles O29: equal samples never match, so the stream runs its whole budget. -/
theorem bypOnAStuckLineIsZero : Obligations.BypOnAStuckLineIsZero := by
  intro s p b hwf hready hstuck
  obtain ⟨t, n, hexec, ends, ran⟩ := exec_byp_ready hready
  rw [← List.length_range (n := 1024), ← List.map_const', List.length_range] at hstuck
  obtain ⟨rfl, hres⟩ := ends.of_no_match fun j hj =>
    regAfter_ne_of_constant hwf (fun i hi => answerAt_of_answersFrom_eq hstuck hi) hj
  have hreads := ran.frame.reads_eq
  rw [List.length_append, bypPreambleCycles_length, streamCycles_length] at hreads
  exact ⟨t, hexec, hres, hreads⟩

/-! ### RDID -/

/-- Settles O30: the captured word is `v`. -/
theorem rdidReturnsTheFixedCapture : Obligations.RdidReturnsTheFixedCapture := by
  intro s p v hready hcapture
  rw [captureAnswers] at hcapture
  obtain ⟨t, u, hexec, hbits, hres, -⟩ := exec_rdid_ready hready
  obtain rfl : u = v := BitVec.eq_of_getLsbD_eq fun i hi => by
    rw [hbits i hi, answerAt_of_answersFrom_eq hcapture hi]
  exact ⟨t, hexec, hres⟩

theorem acceptedOrZero_eq_zero_or_accept (v : Word) :
    acceptedOrZero v = 0#32 ∨ accept (acceptedOrZero v) = true := by
  unfold acceptedOrZero
  split
  · next h => exact .inr h
  · exact .inl rfl

/-- Settles O31: all ones is neither 0 nor accepted. -/
theorem rdidReturnsAcceptedOrZero : Obligations.RdidReturnsAcceptedOrZero := by
  intro s p hready
  obtain ⟨t, v, hexec, -, hres, -⟩ := exec_rdid_ready hready
  have either := acceptedOrZero_eq_zero_or_accept v
  rw [← hres] at either
  refine ⟨t, hexec, either, fun hones => ?_⟩
  rw [hones, accept_allOnes] at either
  exact either.elim (by decide) (by decide)

/-! ### SHIFT -/

/-- Settles O32: bit `i` of the result is sample `i`, which is bit `i` of the word sent. -/
theorem shiftLoopbackRoundTrip : Obligations.ShiftLoopbackRoundTrip := by
  intro s p tmsWord tdiWord width hwidth hready hloopback
  rw [loopbackAnswers] at hloopback
  refine ⟨_, exec_shift_ready hready hwidth tmsWord tdiWord, Nat.eq_of_testBit_eq fun i => ?_⟩
  have short : width.toNat ≤ 32 := hwidth
  rw [Nat.testBit_mod_two_pow, BitVec.testBit_toNat, BitVec.testBit_toNat]
  by_cases hi : i < width.toNat
  · have sent := answerAt_of_answersFrom_eq hloopback hi
    rw [Nat.zero_add] at sent
    rw [afterShift_res _ _ _ _ _ (by omega), sent]
  · by_cases hi32 : i < 32
    · rw [afterShift_res _ _ _ _ _ hi32, decide_eq_false hi, Bool.false_and, Bool.false_and]
    · rw [BitVec.getLsbD_of_ge _ _ (not_lt.mp hi32), decide_eq_false hi, Bool.false_and]

end Sys2Proof.Machine
end

section
/-!
PROOF. Commands one after another: the equivalences of `40_transport.md` R101 and `41_protocol.md` R127, and
the event counts of `70_reset_and_hazards.md` R228.
-/

namespace Sys2Proof.Machine

/-! ### A WRB is a SHIFT of one -/

/-- Given up, the working registers do not tell the two bodies apart. -/
theorem shiftBody_one (p : Pins) (tmsWord tdiWord : Word) (s : State) :
    dropWork (setRes (shiftBody p tmsWord tdiWord 1 s).accw (shiftBody p tmsWord tdiWord 1 s)) =
      dropWork (setRes (zextBit (cycle p (tmsWord.getLsbD 0) (tdiWord.getLsbD 0) s).smp)
        (cycle p (tmsWord.getLsbD 0) (tdiWord.getLsbD 0) s)) := by
  have word : (shiftBody p tmsWord tdiWord 1 s).accw =
      zextBit (cycle p (tmsWord.getLsbD 0) (tdiWord.getLsbD 0) s).smp := by
    refine BitVec.eq_of_getLsbD_eq fun i hi => ?_
    rw [shiftBody_accw _ _ _ _ _ i hi, cycle_smp]
    by_cases h : i = 0
    · subst h
      cases answerAt s 0 <;> rfl
    · simp [h]
  rw [word, shiftBody_eq]
  rfl

/-- Settles O33: the two bodies are one function, behind the same `LineCheck`. -/
theorem shiftOfOneIsWrb : Obligations.ShiftOfOneIsWrb := by
  intro s tmsWord tdiWord
  rw [exec, exec, execShift_of_le (by decide), execWrb]
  congr 1
  funext p u
  exact shiftBody_one p tmsWord tdiWord u

/-! ### A sequence of commands -/

/-- Between `s` and `t` the only line actions were the cycles `cs` on `p`; unlike `RanCycles`, it does not
say by how many commands. -/
structure CyclesBetween (p : Pins) (cs : List (Bool × Bool)) (s t : State) : Prop where
  lines : t.lines = (runCycles p cs s).lines
  trace : t.trace = s.trace ++ cyclesEvents s.cfg p cs (answersFrom s 0 cs.length)
  cfg : t.cfg = s.cfg
  bind : t.bind = s.bind
  answers : t.answers = s.answers.drop cs.length
  reads : t.reads = s.reads + cs.length

theorem RanCycles.cyclesBetween {p : Pins} {cs : List (Bool × Bool)} {s t : State}
    (h : RanCycles p cs s t) : CyclesBetween p cs s t where
  lines := h.lines.trans (runCycles_lines_congr (accepted_lines s) p cs)
  trace := h.trace
  cfg := h.frame.cfg_eq
  bind := h.frame.bind_eq
  answers := h.frame.answers_eq
  reads := h.frame.reads_eq

namespace CyclesBetween

theorem refl (p : Pins) (s : State) : CyclesBetween p [] s s :=
  ⟨rfl, (List.append_nil _).symm, rfl, rfl, rfl, rfl⟩

theorem trans {p : Pins} {cs ds : List (Bool × Bool)} {s t u : State} (h : CyclesBetween p cs s t)
    (k : CyclesBetween p ds t u) : CyclesBetween p (cs ++ ds) s u where
  lines := by rw [k.lines, runCycles_lines_congr h.lines, runCycles_append]
  trace := by
    rw [k.trace, h.trace, h.cfg, answersFrom_of_dropped h.answers h.reads, List.append_assoc,
      List.length_append, answersFrom_add,
      cyclesEvents_append s.cfg p (answersFrom_length s 0 cs.length).symm, Nat.zero_add, Nat.add_zero]
  cfg := k.cfg.trans h.cfg
  bind := k.bind.trans h.bind
  answers := by rw [k.answers, h.answers, List.drop_drop, List.length_append]
  reads := by rw [k.reads, h.reads, Nat.add_assoc, List.length_append]

/-- The pins stay ready for the next command. -/
theorem ready {p : Pins} {cs : List (Bool × Bool)} {s t : State} (h : CyclesBetween p cs s t)
    (hready : LinesReady s p) : LinesReady t p := by
  rwa [LinesReady, h.cfg, h.bind]

theorem answerAt_eq {p : Pins} {cs : List (Bool × Bool)} {s t : State} (h : CyclesBetween p cs s t)
    (k : Nat) : answerAt t k = answerAt s (cs.length + k) :=
  answerAt_of_dropped h.answers h.reads k

/-- The same cycles from the same state end alike. -/
theorem ends_alike {p : Pins} {cs : List (Bool × Bool)} {s t u : State} (h : CyclesBetween p cs s t)
    (k : CyclesBetween p cs s u) : t.trace = u.trace ∧ t.lines = u.lines ∧ t.answers = u.answers :=
  ⟨h.trace.trans k.trace.symm, h.lines.trans k.lines.symm, h.answers.trans k.answers.symm⟩

end CyclesBetween

/-! ### SHIFT and RST as runs of cycles -/

/-- A `SHIFT` of `w` cycles, with its result. -/
theorem exec_shift_ran {s : State} {p : Pins} (h : LinesReady s p) {w : Nat} (hw : w ≤ 32)
    (tmsWord tdiWord : Word) :
    ∃ t, exec (.shift tmsWord tdiWord (BitVec.ofNat 6 w)) s = .next t
      ∧ (∀ i, i < 32 → t.res.getLsbD i = (decide (i < w) && answerAt s i))
      ∧ RanCycles p (wordCycles tmsWord tdiWord w) s t := by
  have fits : (BitVec.ofNat 6 w).toNat = w := by
    rw [BitVec.toNat_ofNat, Nat.mod_eq_of_lt (by omega)]
  have range : BitVec.ofNat 6 w ≤ 32#6 := by
    rw [BitVec.le_def, fits]
    exact hw
  have hexec := exec_shift_ready h range tmsWord tdiWord
  rw [fits] at hexec
  exact ⟨_, hexec, fun i => afterShift_res p tmsWord tdiWord w s, afterShift_ran p tmsWord tdiWord w s⟩

theorem exec_rst_ran {s : State} {p : Pins} (h : LinesReady s p) :
    ∃ t, exec .rst s = .next t ∧ t.res = s.res ∧ RanCycles p (rstCycles s.cfg) s t :=
  ⟨_, exec_rst_ready h, by simp, .of_body (WorkFrame.runCycles p _ _) rfl rfl⟩

theorem exec_wrb_ran {s : State} {p : Pins} (h : LinesReady s p) (tms tdi : Bool) :
    ∃ t, exec (.wrb tms tdi) s = .next t ∧ RanCycles p [(tms, tdi)] s t :=
  ⟨_, exec_wrb_ready h tms tdi,
    .of_body ((WorkFrame.cycle p tms tdi (accepted s)).trans (.setRes _ _)) rfl rfl⟩

/-- The cycles of a word are those of its low bits and then those of its high bits. -/
theorem wordCycles_add (tmsWord tdiWord : Word) (a b : Nat) :
    wordCycles tmsWord tdiWord (a + b) =
      wordCycles tmsWord tdiWord a ++ wordCycles (tmsWord >>> a) (tdiWord >>> a) b := by
  simp [wordCycles, List.range_add, Function.comp_def]

/-- Settles O34: the two parts have the cycles of the whole, and sample `a + k` is the second part's `k`. -/
theorem shiftSplits : Obligations.ShiftSplits := by
  intro s p tmsWord tdiWord a b hab hready
  obtain ⟨t, hexecT, hresT, ranT⟩ := exec_shift_ran hready hab tmsWord tdiWord
  obtain ⟨u, hexecU, hresU, ranU⟩ := exec_shift_ran hready (w := a) (by omega) tmsWord tdiWord
  have first := ranU.cyclesBetween
  obtain ⟨v, hexecV, hresV, ranV⟩ :=
    exec_shift_ran (first.ready hready) (w := b) (by omega) (tmsWord >>> a) (tdiWord >>> a)
  have both := first.trans ranV.cyclesBetween
  rw [← wordCycles_add] at both
  obtain ⟨htrace, hlines, hanswers⟩ := ranT.cyclesBetween.ends_alike both
  refine ⟨t, u, v, hexecT, hexecU, hexecV, htrace, hlines, hanswers,
    BitVec.eq_of_getLsbD_eq fun i hi => ?_⟩
  rw [BitVec.getLsbD_or, BitVec.getLsbD_shiftLeft, hresT i hi, hresU i hi]
  by_cases low : i < a
  · have total : i < a + b := by omega
    simp [low, total]
  · have place : a + (i - a) = i := by omega
    have total : i < a + b ↔ i - a < b := by omega
    rw [hresV (i - a) (by omega), first.answerAt_eq, wordCycles_length, place]
    simp [low, hi, total]

/-! ### RST as a SHIFT -/

/-- The cycles of a word whose bits are all alike. -/
theorem wordCycles_eq_replicate {tmsWord tdiWord : Word} {n : Nat} {tms tdi : Bool}
    (htms : ∀ i, i < n → tmsWord.getLsbD i = tms) (htdi : ∀ i, i < n → tdiWord.getLsbD i = tdi) :
    wordCycles tmsWord tdiWord n = List.replicate n (tms, tdi) := by
  rw [List.eq_replicate_iff]
  refine ⟨wordCycles_length _ _ _, fun c hc => ?_⟩
  obtain ⟨i, hi, rfl⟩ := List.mem_map.mp hc
  rw [List.mem_range] at hi
  rw [htms i hi, htdi i hi]

theorem getLsbD_ones (n i : Nat) :
    (BitVec.ofNat 32 (2 ^ n - 1)).getLsbD i = (decide (i < 32) && decide (i < n)) := by
  rw [BitVec.getLsbD_ofNat, Nat.testBit_two_pow_sub_one]

/-- The cycles of `RST` as those of one word, when they fit. -/
theorem rstCycles_eq_wordCycles {c : Config} (h : c.nReset + c.nIdle ≤ 32) :
    rstCycles c = wordCycles (BitVec.ofNat 32 (2 ^ c.nReset - 1)) 0#32 (c.nReset + c.nIdle) := by
  have high : wordCycles (BitVec.ofNat 32 (2 ^ c.nReset - 1)) 0#32 c.nReset =
      List.replicate c.nReset (true, false) :=
    wordCycles_eq_replicate (fun i hi => by simp [getLsbD_ones, hi, show i < 32 by omega])
      (fun i _ => BitVec.getLsbD_zero)
  have low : wordCycles (BitVec.ofNat 32 (2 ^ c.nReset - 1) >>> c.nReset) (0#32 >>> c.nReset) c.nIdle =
      List.replicate c.nIdle (false, false) :=
    wordCycles_eq_replicate (fun i _ => by simp [getLsbD_ones]) (fun i _ => by simp)
  rw [rstCycles, wordCycles_add, high, low]

/-- Settles O35: the two runs have the same cycles. -/
theorem rstIsAShift : Obligations.RstIsAShift := by
  intro s p hfits hready
  obtain ⟨t, hexecT, hresT, ranT⟩ := exec_rst_ran hready
  obtain ⟨u, hexecU, -, ranU⟩ :=
    exec_shift_ran hready hfits (BitVec.ofNat 32 (2 ^ s.cfg.nReset - 1)) 0#32
  rw [rstCycles_eq_wordCycles hfits] at ranT
  obtain ⟨htrace, hlines, -⟩ := ranT.cyclesBetween.ends_alike ranU.cyclesBetween
  exact ⟨t, u, hexecT, hexecU, htrace, hlines, hresT⟩

/-! ### The operations as sequences of commands -/

theorem execAll_append (is js : List Instr) (s : State) :
    execAll (is ++ js) s = (execAll is s).bind (execAll js) := by
  induction is generalizing s with
  | nil => rfl
  | cons i is ih =>
    rw [List.cons_append, execAll, execAll]
    cases exec i s with
    | next t => exact ih t
    | fault r => rfl
    | refused r => rfl

/-- The commands `is` complete one after another from `s` to `t`, with the cycles `cs` on `p`. -/
structure CommandsRun (p : Pins) (is : List Instr) (cs : List (Bool × Bool)) (s t : State) : Prop where
  runs : execAll is s = some t
  cycles : CyclesBetween p cs s t

namespace CommandsRun

theorem single {p : Pins} {i : Instr} {cs : List (Bool × Bool)} {s t : State} (hexec : exec i s = .next t)
    (ran : RanCycles p cs s t) : CommandsRun p [i] cs s t :=
  ⟨by simp only [execAll, hexec], ran.cyclesBetween⟩

theorem trans {p : Pins} {is js : List Instr} {cs ds : List (Bool × Bool)} {s t u : State}
    (h : CommandsRun p is cs s t) (k : CommandsRun p js ds t u) :
    CommandsRun p (is ++ js) (cs ++ ds) s u :=
  ⟨by rw [execAll_append, h.runs, Option.bind_some, k.runs], h.cycles.trans k.cycles⟩

/-- One `WRB` for each cycle. -/
theorem wrbs {p : Pins} (cs : List (Bool × Bool)) {s : State} (hready : LinesReady s p) :
    ∃ t, CommandsRun p (cs.map fun c => .wrb c.1 c.2) cs s t := by
  induction cs generalizing s with
  | nil => exact ⟨s, rfl, .refl p s⟩
  | cons c cs ih =>
    obtain ⟨t, hexec, ran⟩ := exec_wrb_ran hready c.1 c.2
    have first := single hexec ran
    obtain ⟨u, rest⟩ := ih (first.cycles.ready hready)
    exact ⟨u, first.trans rest⟩

theorem rst {p : Pins} {s : State} (hready : LinesReady s p) :
    ∃ t, CommandsRun p [.rst] (rstCycles s.cfg) s t :=
  let ⟨t, hexec, _, ran⟩ := exec_rst_ran hready
  ⟨t, single hexec ran⟩

theorem shift {p : Pins} {s : State} (hready : LinesReady s p) (tmsWord tdiWord : Word) {w : Nat}
    (hw : w ≤ 32) :
    ∃ t, CommandsRun p [.shift tmsWord tdiWord (BitVec.ofNat 6 w)] (wordCycles tmsWord tdiWord w) s t :=
  let ⟨t, hexec, _, ran⟩ := exec_shift_ran hready hw tmsWord tdiWord
  ⟨t, single hexec ran⟩

end CommandsRun

/-- The state after the command `CFG`. -/
def afterCfg (p : Pins) (s : State) : State := completed (cfgBody p (accepted s))

theorem afterCfg_ready {s : State} {p : Pins} (h : LinesReady s p) : LinesReady (afterCfg p s) p := by
  rwa [LinesReady, afterCfg, cfgBody_frame]

theorem answerAt_afterCfg (p : Pins) (s : State) (k : Nat) : answerAt (afterCfg p s) k = answerAt s k :=
  answerAt_cfgBody p (accepted s) k

theorem execAll_cfg_cons {s : State} {p : Pins} (h : LinesReady s p) (is : List Instr) :
    execAll (.cfg :: is) s = execAll is (afterCfg p s) := by
  rw [execAll, exec_cfg_ready h]
  rfl

/-- An operation ends like the command `CFG` followed by the same cycles. -/
theorem RanOperation.ends_alike {p : Pins} {cs : List (Bool × Bool)} {s t u : State}
    (h : RanOperation p cs s t) (k : CyclesBetween p cs (afterCfg p s) u) :
    t.trace = u.trace ∧ t.lines = u.lines ∧ t.answers = u.answers := by
  have hanswers : (afterCfg p s).answers = s.answers := by
    rw [afterCfg, cfgBody_frame]
    rfl
  have hcfg : (afterCfg p s).cfg = s.cfg := cfgBody_cfg p (accepted s)
  have htrace : (afterCfg p s).trace = s.trace ++ cfgEvents p := cfgBody_trace p (accepted s)
  have hsamples : answersFrom (afterCfg p s) 0 cs.length = answersFrom s 0 cs.length :=
    answersFrom_cfgBody p (accepted s) 0 cs.length
  have hlines : (afterCfg p s).lines = (cfgBody p (accepted s)).lines := rfl
  refine ⟨?_, ?_, ?_⟩
  · rw [h.trace, k.trace, htrace, hcfg, hsamples]
  · rw [h.lines, k.lines, runCycles_lines_congr hlines]
  · rw [k.answers, hanswers]
    exact h.frame.answers_eq

/-- Settles O36: the two runs have the same cycles, and so the same captured word. -/
theorem rdidIsItsTransportSequence : Obligations.RdidIsItsTransportSequence := by
  intro s p hready
  obtain ⟨t, v, hexec, hbits, hres, ran⟩ := exec_rdid_ready hready
  have ready0 := afterCfg_ready hready
  obtain ⟨s1, run1⟩ := CommandsRun.rst ready0
  have ready1 := run1.cycles.ready ready0
  obtain ⟨s2, run2⟩ := CommandsRun.shift ready1 0b001#32 0#32 (w := 3) (by decide)
  have before := run1.trans run2
  obtain ⟨u, hexecU, hresU, ranU⟩ :=
    exec_shift_ran (before.cycles.ready ready0) (w := 32) le_rfl 0#32 0#32
  have all := before.trans (.single hexecU ranU)
  have hcfg : (afterCfg p s).cfg = s.cfg := cfgBody_cfg p (accepted s)
  have cycles := all.cycles
  rw [hcfg, captureCycles_eq] at cycles
  obtain ⟨htrace, hlines, hanswers⟩ := ran.ends_alike cycles
  obtain rfl : u.res = v := BitVec.eq_of_getLsbD_eq fun i hi => by
    rw [hresU i hi, hbits i hi, decide_eq_true hi, Bool.true_and, before.cycles.answerAt_eq,
      answerAt_afterCfg, List.length_append, rstCycles_length, wordCycles_length, hcfg]
  exact ⟨t, u, hexec, (execAll_cfg_cons hready _).trans all.runs, htrace, hlines, hanswers, hres⟩

/-- Settles O37: the stream of `n` cycles is `n` commands `WRB`. -/
theorem bypIsItsTransportSequence : Obligations.BypIsItsTransportSequence := by
  intro s p hready
  obtain ⟨t, n, hexec, ends, ran⟩ := exec_byp_ready hready
  have ready0 := afterCfg_ready hready
  obtain ⟨s1, run1⟩ := CommandsRun.rst ready0
  obtain ⟨s2, run2⟩ := CommandsRun.shift (run1.cycles.ready ready0) 0b0011#32 0#32 (w := 4) (by decide)
  have toIr := run1.trans run2
  obtain ⟨s3, run3⟩ := CommandsRun.shift (toIr.cycles.ready ready0) 0x80#32 0xFF#32 (w := 8) (by decide)
  have loaded := toIr.trans run3
  obtain ⟨s4, run4⟩ := CommandsRun.shift (loaded.cycles.ready ready0) 0b0011#32 0#32 (w := 4) (by decide)
  have preamble := loaded.trans run4
  obtain ⟨u, stream⟩ := CommandsRun.wrbs (streamCycles s.cfg n) (preamble.cycles.ready ready0)
  have all := preamble.trans stream
  have hcfg : (afterCfg p s).cfg = s.cfg := cfgBody_cfg p (accepted s)
  have cycles := all.cycles
  rw [hcfg] at cycles
  obtain ⟨htrace, hlines, hanswers⟩ := ran.ends_alike cycles
  have runs := (execAll_cfg_cons hready _).trans all.runs
  rw [streamCycles, List.map_map] at runs
  exact ⟨t, u, n, hexec, ends.budget, runs, htrace, hlines, hanswers⟩

/-! ### Counting events -/

/-- The events of one cycle: TDI, when used, adds one (R228). -/
def eventsPerCycle (p : Pins) : Nat := if p.di = none then 6 else 7

theorem cycleEvents_length (c : Config) (p : Pins) (tms tdi b : Bool) :
    (cycleEvents c p tms tdi b).length = eventsPerCycle p := by
  obtain ⟨ck, ms, dO, di⟩ := p
  cases di with
  | none => rfl
  | some d => rfl

theorem cyclesEvents_length (c : Config) (p : Pins) (cs : List (Bool × Bool)) {bs : List Bool}
    (h : bs.length = cs.length) : (cyclesEvents c p cs bs).length = eventsPerCycle p * cs.length := by
  simp [cyclesEvents, List.length_flatMap, cycleEvents_length, h, Nat.mul_comm]

theorem cfgEvents_length (p : Pins) : (cfgEvents p).length = if p.di = none then 5 else 7 := by
  obtain ⟨ck, ms, dO, di⟩ := p
  cases di with
  | none => rfl
  | some d => rfl

theorem relEvents_length (p : Pins) : (relEvents p).length = if p.di = none then 3 else 4 := by
  obtain ⟨ck, ms, dO, di⟩ := p
  cases di with
  | none => rfl
  | some d => rfl

theorem RanCycles.trace_length {p : Pins} {cs : List (Bool × Bool)} {s t : State} (h : RanCycles p cs s t) :
    t.trace.length = s.trace.length + eventsPerCycle p * cs.length := by
  rw [h.trace, List.length_append, cyclesEvents_length s.cfg p cs (answersFrom_length s 0 _)]

theorem RanOperation.trace_length {p : Pins} {cs : List (Bool × Bool)} {s t : State}
    (h : RanOperation p cs s t) :
    t.trace.length = s.trace.length
      + (if p.di = none then 5 + 6 * cs.length else 7 + 7 * cs.length) := by
  rw [h.trace, List.length_append, List.length_append, cfgEvents_length,
    cyclesEvents_length s.cfg p cs (answersFrom_length s 0 _), eventsPerCycle]
  split <;> omega

/-- Settles O49: the trace of each command is the events of its rule. -/
theorem eventCounts : Obligations.EventCounts := by
  intro s p hready
  refine ⟨?cfg, ?rel, fun tms tdi => ?wrb, fun tmsWord tdiWord width hwidth => ?shift, ?rst, ?rdid, ?byp⟩
  case cfg =>
    obtain ⟨t, hexec, htrace, -⟩ := (cfgRule s).2 p hready
    exact ⟨t, hexec, by rw [htrace, List.length_append, cfgEvents_length]⟩
  case rel =>
    obtain ⟨t, hexec, htrace, -⟩ := (relRule s).2 p hready
    exact ⟨t, hexec, by rw [htrace, List.length_append, relEvents_length]⟩
  case wrb =>
    obtain ⟨t, hexec, ran⟩ := exec_wrb_ran hready tms tdi
    have events := ran.trace_length
    rw [List.length_singleton, Nat.mul_one] at events
    exact ⟨t, hexec, events⟩
  case shift =>
    have events := (afterShift_ran p tmsWord tdiWord width.toNat s).trace_length
    rw [wordCycles_length] at events
    exact ⟨_, exec_shift_ready hready hwidth tmsWord tdiWord, events⟩
  case rst =>
    obtain ⟨t, hexec, -, ran⟩ := exec_rst_ran hready
    have events := ran.trace_length
    rw [rstCycles_length] at events
    exact ⟨t, hexec, events⟩
  case rdid =>
    obtain ⟨t, v, hexec, -, -, ran⟩ := exec_rdid_ready hready
    have events := ran.trace_length
    rw [rdidCycles_length] at events
    exact ⟨t, hexec, events⟩
  case byp =>
    obtain ⟨t, n, hexec, ends, ran⟩ := exec_byp_ready hready
    have events := ran.trace_length
    have reads := ran.frame.reads_eq
    rw [List.length_append, bypPreambleCycles_length, streamCycles_length] at events reads
    exact ⟨t, n, hexec, ends.budget, fun hwf => ends.ge_of_bit_zero (pattern_bit_zero_of_wf hwf),
      reads, events⟩

end Sys2Proof.Machine
end

section
/-!
PROOF. The pin search (`43_host_sequences.md` R155 to R158).
-/

namespace Sys2Proof.Machine

theorem mem_assignments_succ {k : Nat} {candidates a : List Pin} :
    a ∈ assignments (k + 1) candidates ↔
      ∃ p ∈ candidates, ∃ b ∈ assignments k (candidates.erase p), p :: b = a := by
  simp only [assignments, List.mem_flatMap, List.mem_map]

/-- As many assignments as `m(m-1)…(m-k+1)` (R156). -/
theorem assignments_length (k : Nat) (candidates : List Pin) :
    (assignments k candidates).length = candidates.length.descFactorial k := by
  induction k generalizing candidates with
  | zero => rfl
  | succ k ih =>
    have each : ∀ p ∈ candidates,
        ((assignments k (candidates.erase p)).map fun b => p :: b).length =
          (candidates.length - 1).descFactorial k := fun p hp => by
      rw [List.length_map, ih, List.length_erase_of_mem hp]
    rw [assignments, List.length_flatMap, List.map_congr_left each, List.map_const', List.sum_replicate,
      smul_eq_mul]
    cases candidates with
    | nil => rw [List.length_nil, Nat.zero_mul, Nat.zero_descFactorial_succ]
    | cons p rest => rw [List.length_cons, Nat.add_sub_cancel, Nat.succ_descFactorial_succ]

/-- The assignments are the ordered choices of `k` distinct candidates. -/
theorem mem_assignments_iff {k : Nat} {candidates : List Pin} (h : candidates.Nodup) (a : List Pin) :
    a ∈ assignments k candidates ↔ a.length = k ∧ a.Nodup ∧ ∀ p ∈ a, p ∈ candidates := by
  induction k generalizing candidates a with
  | zero =>
    rw [assignments, List.mem_singleton, List.length_eq_zero_iff]
    exact ⟨by rintro rfl; exact ⟨rfl, List.nodup_nil, nofun⟩, And.left⟩
  | succ k ih =>
    rw [mem_assignments_succ]
    constructor
    · rintro ⟨p, hp, b, hb, rfl⟩
      obtain ⟨hlength, hnodup, hmem⟩ := (ih (h.erase p) b).mp hb
      simp only [h.mem_erase_iff] at hmem
      have fresh : p ∉ b := fun hpb => (hmem p hpb).1 rfl
      refine ⟨congrArg Nat.succ hlength, List.nodup_cons.mpr ⟨fresh, hnodup⟩, ?_⟩
      exact List.forall_mem_cons.mpr ⟨hp, fun q hq => (hmem q hq).2⟩
    · rintro ⟨hlength, hnodup, hmem⟩
      obtain ⟨p, b, rfl⟩ := List.exists_cons_of_length_eq_add_one hlength
      obtain ⟨hfresh, hnodup⟩ := List.nodup_cons.mp hnodup
      obtain ⟨hp, hmem⟩ := List.forall_mem_cons.mp hmem
      refine ⟨p, hp, b, (ih (h.erase p) b).mpr ⟨Nat.succ.inj hlength, hnodup, fun q hq => ?_⟩, rfl⟩
      exact h.mem_erase_iff.mpr ⟨fun hqp => hfresh (hqp ▸ hq), hmem q hq⟩

/-- No assignment is tried twice (R157): two of them differ in their first pin, or in the rest. -/
theorem assignments_nodup {k : Nat} {candidates : List Pin} (h : candidates.Nodup) :
    (assignments k candidates).Nodup := by
  induction k generalizing candidates with
  | zero => exact List.nodup_singleton _
  | succ k ih =>
    rw [assignments, List.nodup_flatMap]
    refine ⟨fun p _ => (ih (h.erase p)).map (List.cons_injective), h.imp fun {p q} hpq a hp hq => ?_⟩
    obtain ⟨b, -, rfl⟩ := List.mem_map.mp hp
    obtain ⟨c, -, heq⟩ := List.mem_map.mp hq
    exact hpq (List.cons.inj heq).1.symm

/-- Settles O51: count, no repeats, and membership, each by induction on the arity. -/
theorem searchEnumeratesAssignments : Obligations.SearchEnumeratesAssignments := fun k candidates h =>
  ⟨assignments_length k candidates, assignments_nodup h, mem_assignments_iff h⟩

/-- Settles O52: the count of assignments is 0, so the search has none to try. -/
theorem searchTooWideFailsAtOnce : Obligations.SearchTooWideFailsAtOnce := by
  intro evaluate k blacklist s hwide
  have none : assignments k (candidatePins s.cfg blacklist) = [] := by
    rw [← List.length_eq_zero_iff, assignments_length, Nat.descFactorial_eq_zero_iff_lt]
    exact hwide
  rw [pinSearch, none, searchList]

end Sys2Proof.Machine
end

section
/-!
PROOF. The evaluator `testIdCode` (`43_host_sequences.md` R151, R153): it binds three pins, reads three times
and releases.
-/

namespace Sys2Proof.Machine

/-! ### The host issues a command -/

/-- An issued command is encoded, accepted, decoded and run. -/
theorem issue_of_exec {i : Instr} {s t : State} (hwf : s.cfg.wf = true) (hbusy : s.busy = false)
    (hi : i.wellFormed = true) (hexec : exec i s = .next t) : issue i s = some t := by
  have hstep : step { s with host := .command (encode i) :: s.host } = exec i s :=
    step_of_decode_ok hwf hbusy rfl (decode_encode hi)
  rw [issue, hstep, hexec]

/-- No legal configuration has the pin `PIN_NONE` (`00_scope.md` R7). -/
theorem ne_pinNone_of_eligible {c : Config} (hwf : c.wf = true) {p : Pin} (hp : isEligible c p = true) :
    p ≠ pinNone := by
  rintro rfl
  have inRange := ((wf_iff_configLegal c).mp hwf).1 _ (List.contains_iff_mem.mp hp)
  exact absurd inRange (by decide)

/-- The state after a `BIND` of a legal pin. -/
def afterBind (role : Role) (p : Pin) (s : State) : State :=
  { s with bind := setBinding s.bind role p, busy := false, seqPos := 0 }

theorem issue_bind {s : State} {role : Role} {p : Pin} (hwf : s.cfg.wf = true) (hbusy : s.busy = false)
    (hp : isEligible s.cfg p = true ∨ p = pinNone ∧ role = .tdi) :
    issue (.bind role p) s = some (afterBind role p s) := by
  have operand : p = pinNone → role = .tdi := fun hnone =>
    hp.elim (fun helig => absurd hnone (ne_pinNone_of_eligible hwf helig)) And.right
  exact issue_of_exec hwf hbusy (decide_eq_true operand) (execBind_legal hp)

/-- The four `BIND` of R151 leave the three pins bound and TDI unused. -/
theorem issueAll_bindThree {s : State} {a0 a1 a2 : Pin} (hwf : s.cfg.wf = true) (hbusy : s.busy = false)
    (h0 : isEligible s.cfg a0 = true) (h1 : isEligible s.cfg a1 = true) (h2 : isEligible s.cfg a2 = true) :
    issueAll (bindThree a0 a1 a2) s =
      some { s with bind := ⟨a0, a1, a2, pinNone⟩, busy := false, seqPos := 0 } := by
  have tck := issue_bind (role := .tck) hwf hbusy (.inl h0)
  have tms := issue_bind (s := afterBind .tck a0 s) (role := .tms) hwf rfl (.inl h1)
  have tdo := issue_bind (s := afterBind .tms a1 (afterBind .tck a0 s)) (role := .tdo) hwf rfl (.inl h2)
  have tdi := issue_bind (s := afterBind .tdo a2 (afterBind .tms a1 (afterBind .tck a0 s))) hwf rfl
    (.inr ⟨rfl, rfl⟩)
  simp only [bindThree, issueAll, tck, tms, tdo, tdi, Option.bind_some]
  rfl

/-! ### Between the commands of an evaluator -/

/-- The host may issue a line-touching command on the pins `p`, and only these are driven. -/
structure Operable (p : Pins) (s : State) : Prop where
  wf : s.cfg.wf = true
  idle : s.busy = false
  ready : LinesReady s p
  canonical : linesWf s.lines = true
  driven : DrivenWithin p s

/-- Line actions on the pins drive no other pin. -/
theorem LineActions.drivenWithin {p : Pins} {s t : State} (h : LineActions (pinList p) s t)
    (hs : linesWf s.lines = true) (hdriven : DrivenWithin p s) : DrivenWithin p t := by
  intro n hn
  by_contra hnone
  push Not at hnone
  rw [mem_drivenPins_iff (h.keeps_linesWf hs), h.lineAt_other hnone, ← mem_drivenPins_iff hs] at hn
  obtain ⟨q, hq, hqn⟩ := hdriven n hn
  exact hnone q hq hqn

/-- The host issues `RDID`: it completes, and `RES` is 0 or a word that `accept` passes. -/
theorem Operable.issue_rdid {p : Pins} {s : State} (h : Operable p s) :
    ∃ t, issue .rdid s = some t ∧ Operable p t ∧ t.bind = s.bind ∧ t.err = s.err
      ∧ (t.res = 0#32 ∨ accept t.res = true) := by
  obtain ⟨t, v, hexec, -, hres, ran⟩ := exec_rdid_ready h.ready
  have hcfg := ran.frame.cfg_eq
  have hbind := ran.frame.bind_eq
  have actions : LineActions (pinList p) s (runCycles p (rdidCycles s.cfg) (cfgBody p (accepted s))) :=
    (LineActions.ofAccepted _ s).trans ((LineActions.ofCfgBody p _).trans (.ofRunCycles p _ _))
  have canonical := actions.keeps_linesWf h.canonical
  have driven := actions.drivenWithin h.canonical h.driven
  rw [← ran.lines] at canonical
  rw [DrivenWithin, drivenPins, ← ran.lines] at driven
  refine ⟨t, issue_of_exec h.wf h.idle rfl hexec, ⟨?wf, ?idle, ?ready, canonical, driven⟩, hbind,
    ran.frame.err_eq, ?res⟩
  case wf => rw [hcfg, h.wf]
  case idle => exact (congrArg State.busy ran.frame).trans rfl
  case ready =>
    rw [LinesReady, hcfg, hbind]
    exact h.ready
  case res =>
    rw [hres]
    exact acceptedOrZero_eq_zero_or_accept v

/-- The host issues `REL`: every line is passive, and `RES` stays. -/
theorem Operable.issue_rel {p : Pins} {s : State} (h : Operable p s) :
    ∃ t, issue .rel s = some t ∧ allPassive t ∧ t.bind = s.bind ∧ t.err = s.err ∧ t.res = s.res := by
  refine ⟨_, issue_of_exec h.wf h.idle rfl (exec_rel_ready h.ready),
    relBody_allPassive (s := accepted s) h.canonical h.driven, ?_⟩
  rw [relBody_frame]
  exact ⟨rfl, rfl, rfl⟩

/-- A positive verdict repeats one word that is not 0. -/
theorem idCodeVerdict_imp {v1 v2 v3 : Word} (h : idCodeVerdict v1 v2 v3 = true) : v3 ≠ 0#32 := by
  simp only [idCodeVerdict, Bool.and_eq_true, bne_iff_ne, beq_iff_eq] at h
  obtain ⟨⟨⟨hne, -⟩, rfl⟩, rfl⟩ := h
  exact hne

/-- From operable lines the reads and the release complete. -/
theorem Operable.reads_and_release {p : Pins} {s : State} (h : Operable p s) :
    ∃ s1 s2 s3 t, issue .rdid s = some s1 ∧ issue .rdid s1 = some s2 ∧ issue .rdid s2 = some s3
      ∧ issue .rel s3 = some t ∧ allPassive t ∧ t.err = s.err ∧ t.bind = s.bind ∧ t.res = s3.res
      ∧ (s3.res = 0#32 ∨ accept s3.res = true) := by
  obtain ⟨s1, read1, op1, bind1, err1, -⟩ := h.issue_rdid
  obtain ⟨s2, read2, op2, bind2, err2, -⟩ := op1.issue_rdid
  obtain ⟨s3, read3, op3, bind3, err3, either⟩ := op2.issue_rdid
  obtain ⟨t, release, passive, bind4, err4, res4⟩ := op3.issue_rel
  exact ⟨s1, s2, s3, t, read1, read2, read3, release, passive, by rw [err4, err3, err2, err1],
    by rw [bind4, bind3, bind2, bind1], res4, either⟩

/-- Three distinct eligible pins, bound with TDI unused, are ready lines. -/
theorem linesReady_three {s : State} {a0 a1 a2 : Pin} (hwf : s.cfg.wf = true)
    (hbind : s.bind = ⟨a0, a1, a2, pinNone⟩) (h0 : isEligible s.cfg a0 = true)
    (h1 : isEligible s.cfg a1 = true) (h2 : isEligible s.cfg a2 = true) (h01 : a0 ≠ a1) (h02 : a0 ≠ a2)
    (h12 : a1 ≠ a2) : LinesReady s ⟨a0, a1, a2, none⟩ := by
  refine ⟨?_, ?_⟩
  · rw [hbind, lineCheck_ok_iff]
    exact ⟨ne_pinNone_of_eligible hwf h0, ne_pinNone_of_eligible hwf h1, ne_pinNone_of_eligible hwf h2,
      ⟨h01, h02, h12, .inl rfl⟩, rfl⟩
  · rw [missingPin_none_iff]
    simp [pinList, h0, h1, h2]

/-- Settles O50: four `BIND` make the lines operable, the reads keep them so, and the release ends it. -/
theorem testIdCodeEndsPassive : Obligations.TestIdCodeEndsPassive := by
  intro s a0 a1 a2 hwf hinv hpassive h0 h1 h2 h01 h02 h12
  have binds := issueAll_bindThree hwf hinv.idle.1 h0 h1 h2
  have operable : Operable ⟨a0, a1, a2, none⟩
      { s with bind := ⟨a0, a1, a2, pinNone⟩, busy := false, seqPos := 0 } :=
    { wf := hwf
      idle := rfl
      ready := linesReady_three hwf rfl h0 h1 h2 h01 h02 h12
      canonical := hinv.lines.1
      driven := fun n hn => absurd (hpassive ▸ hn : n ∈ []) List.not_mem_nil }
  obtain ⟨s1, s2, s3, t, read1, read2, read3, release, passive, err, bind, res, either⟩ :=
    operable.reads_and_release
  refine ⟨idCodeVerdict s1.res s2.res s3.res, t, ?_, passive, err, bind, fun haccepts => ?_⟩
  · simp [testIdCode, idCodeReads, binds, issueRead, read1, read2, read3, release]
  · rw [res]
    exact either.resolve_left (idCodeVerdict_imp haccepts)

end Sys2Proof.Machine
end

section
/-!
PROOF. The reference target (`49_target_environment.md` R176 to R178): where the controller goes, and what
the shift stages put on TDO.
-/

namespace Sys2Proof.Machine

/-! ### The controller -/

theorem tapRun_append (t : TapState) (cs ds : List (Bool × Bool)) :
    tapRun t (cs ++ ds) = tapRun (tapRun t cs) ds := by
  rw [tapRun, List.foldl_append]
  rfl

/-- Five cycles with TMS high reach Test-Logic-Reset from every state. -/
theorem tapNext_high_five (t : TapState) :
    tapNext (tapNext (tapNext (tapNext (tapNext t true) true) true) true) true = .testLogicReset := by
  cases t <;> rfl

/-- A controller state that a TMS level keeps is kept by cycles of that level. -/
theorem tapRun_stays {t : TapState} {tms : Bool} (hstay : tapNext t tms = t) {cs : List (Bool × Bool)}
    (hcs : ∀ c ∈ cs, c.1 = tms) : tapRun t cs = t := by
  induction cs with
  | nil => rfl
  | cons c cs ih =>
    obtain ⟨hc, hcs⟩ := List.forall_mem_cons.mp hcs
    calc tapRun t (c :: cs) = tapRun (tapNext t c.1) cs := rfl
      _ = t := by rw [hc, hstay, ih hcs]

theorem tapRun_highs (t : TapState) {cs : List (Bool × Bool)} (hcs : ∀ c ∈ cs, c.1 = true)
    (hlength : 5 ≤ cs.length) : tapRun t cs = .testLogicReset := by
  match cs, hcs, hlength with
  | a :: b :: c :: d :: e :: rest, hcs, _ =>
    simp only [List.forall_mem_cons] at hcs
    obtain ⟨ha, hb, hc, hd, he, hrest⟩ := hcs
    calc tapRun t (a :: b :: c :: d :: e :: rest)
        = tapRun (tapNext (tapNext (tapNext (tapNext (tapNext t a.1) b.1) c.1) d.1) e.1) rest := rfl
      _ = tapRun .testLogicReset rest := by rw [ha, hb, hc, hd, he, tapNext_high_five]
      _ = .testLogicReset := tapRun_stays rfl hrest

theorem tapRun_lows {cs : List (Bool × Bool)} (hcs : ∀ c ∈ cs, c.1 = false) (hlength : 1 ≤ cs.length) :
    tapRun .testLogicReset cs = .runTestIdle := by
  match cs, hcs, hlength with
  | c :: cs, hcs, _ =>
    obtain ⟨hc, hcs⟩ := List.forall_mem_cons.mp hcs
    calc tapRun .testLogicReset (c :: cs) = tapRun (tapNext .testLogicReset c.1) cs := rfl
      _ = .runTestIdle := by rw [hc]; exact tapRun_stays rfl hcs

/-- A legal configuration resets for at least 6 cycles (`00_scope.md` R7, R8). -/
theorem six_le_nReset_of_wf {c : Config} (h : c.wf = true) : 6 ≤ c.nReset := by
  obtain ⟨-, -, -, hreset, -⟩ := (wf_iff_configLegal c).mp h
  exact hreset

/-- Settles O53: the TMS-high cycles reset the controller, the TMS-low ones take it to Run-Test/Idle. -/
theorem rstReachesRunTestIdle : Obligations.RstReachesRunTestIdle := by
  intro c t hwf
  have hreset := six_le_nReset_of_wf hwf
  have hidle := nIdle_pos_of_wf hwf
  rw [rstCycles, tapRun_append, tapRun_highs t (by simp) (by simp; omega), tapRun_lows (by simp) (by simpa)]

/-! ### Runs of the target -/

theorem targetRun_append (d : Device) (t : Target) (cs ds : List (Bool × Bool)) :
    targetRun d t (cs ++ ds) = targetRun d (targetRun d t cs) ds := by
  rw [targetRun, List.foldl_append]
  rfl

@[simp] theorem targetRun_nil (d : Device) (t : Target) : targetRun d t [] = t := rfl

@[simp] theorem targetRun_cons (d : Device) (t : Target) (c : Bool × Bool) (cs : List (Bool × Bool)) :
    targetRun d t (c :: cs) = targetRun d (targetCycle d c.1 c.2 t) cs := rfl

@[simp] theorem targetCycle_tap (d : Device) (tms tdi : Bool) (t : Target) :
    (targetCycle d tms tdi t).tap = tapNext t.tap tms := rfl

/-- The controller follows TMS, whatever the registers hold. -/
theorem targetRun_tap (d : Device) (t : Target) (cs : List (Bool × Bool)) :
    (targetRun d t cs).tap = tapRun t.tap cs := by
  induction cs generalizing t with
  | nil => rfl
  | cons c cs ih => exact ih (targetCycle d c.1 c.2 t)

theorem targetAnswers_append {d : Device} {t : Target} {cs ds : List (Bool × Bool)} {as bs : List Bool}
    (hlength : as.length = cs.length) (h : targetAnswers d t (cs ++ ds) (as ++ bs) = true) :
    targetAnswers d (targetRun d t cs) ds bs = true := by
  induction cs generalizing t as with
  | nil =>
    obtain rfl := List.length_eq_zero_iff.mp hlength
    exact h
  | cons c cs ih =>
    obtain ⟨a, as, rfl⟩ := List.exists_cons_of_length_eq_add_one hlength
    simp only [List.cons_append, targetAnswers, Bool.and_eq_true] at h
    exact ih (Nat.succ.inj hlength) h.2

/-! ### The registers after RST -/

/-- The controller is in Run-Test/Idle with the identification register selected. -/
def IdleAtIdcode (t : Target) : Prop := t.tap = .runTestIdle ∧ t.sel = .idcode

theorem targetCycle_sel_of_reset {d : Device} {t : Target} {tms : Bool} (tdi : Bool)
    (h : t.tap = .testLogicReset) : (targetCycle d tms tdi t).sel = .idcode := by
  cases tms <;> simp [targetCycle, fallingEdge, risingEdge, h, tapNext]

theorem IdleAtIdcode.low {d : Device} {t : Target} (h : IdleAtIdcode t) (tdi : Bool) :
    IdleAtIdcode (targetCycle d false tdi t) := by
  obtain ⟨htap, hsel⟩ := h
  simp [IdleAtIdcode, targetCycle, fallingEdge, risingEdge, htap, hsel, tapNext]

theorem IdleAtIdcode.lows {d : Device} {cs : List (Bool × Bool)} (hcs : ∀ c ∈ cs, c.1 = false) {t : Target}
    (h : IdleAtIdcode t) : IdleAtIdcode (targetRun d t cs) := by
  induction cs generalizing t with
  | nil => exact h
  | cons c cs ih =>
    obtain ⟨hc, hcs⟩ := List.forall_mem_cons.mp hcs
    rw [targetRun_cons, hc]
    exact ih hcs (h.low c.2)

/-- Cycles with the TMS levels of `RST` leave the target idle with the identification register selected,
whatever its state was and whatever TDI is. -/
theorem idleAtIdcode_of_rst (d : Device) (t : Target) {highs lows : List (Bool × Bool)}
    (hhighs : ∀ c ∈ highs, c.1 = true) (hlows : ∀ c ∈ lows, c.1 = false) (hreset : 5 ≤ highs.length)
    (hidle : 1 ≤ lows.length) : IdleAtIdcode (targetRun d t (highs ++ lows)) := by
  rw [targetRun_append]
  have reset : (targetRun d t highs).tap = .testLogicReset := by
    rw [targetRun_tap, tapRun_highs _ hhighs hreset]
  match lows, hlows, hidle with
  | c :: lows, hlows, _ =>
    obtain ⟨hc, hlows⟩ := List.forall_mem_cons.mp hlows
    rw [targetRun_cons, hc]
    refine IdleAtIdcode.lows hlows ⟨?_, targetCycle_sel_of_reset c.2 reset⟩
    rw [targetCycle_tap, reset]
    rfl

/-! ### Shifting -/

/-- The controller is in Shift-DR, the stage holds `stage`, and its lowest bit is on TDO. -/
structure ShiftingDr (stage : List Bool) (t : Target) : Prop where
  tap : t.tap = .shiftDr
  drs : t.drs = stage
  q : t.q = stage.head?

/-- TMS 1, 0, 0 from Run-Test/Idle or Update-IR captures the selected data register and shifts. -/
theorem shiftingDr_of_capture (d : Device) {t : Target} (h : t.tap = .runTestIdle ∨ t.tap = .updateIr)
    (a b c : Bool) :
    ShiftingDr (captured d t.sel) (targetRun d t [(true, a), (false, b), (false, c)]) := by
  rcases h with h | h
  · constructor <;> simp [targetCycle, fallingEdge, risingEdge, h, tapNext]
  · constructor <;> simp [targetCycle, fallingEdge, risingEdge, h, tapNext]

theorem ShiftingDr.low {stage : List Bool} {t : Target} (h : ShiftingDr stage t) (d : Device) (tdi : Bool) :
    ShiftingDr (shiftStage stage tdi) (targetCycle d false tdi t) := by
  obtain ⟨htap, hdrs, -⟩ := h
  constructor <;> simp [targetCycle, fallingEdge, risingEdge, htap, hdrs, tapNext]

/-- A non-empty stage gives out its bits lowest first, and then the bits of TDI. -/
theorem ShiftingDr.answers_eq {d : Device} {cs : List (Bool × Bool)} (hcs : ∀ c ∈ cs, c.1 = false)
    {stage : List Bool} (hstage : stage ≠ []) {t : Target} (h : ShiftingDr stage t) {bs : List Bool}
    (hbs : targetAnswers d t cs bs = true) : bs = (stage ++ cs.map Prod.snd).take cs.length := by
  induction cs generalizing stage t bs with
  | nil =>
    cases bs with
    | nil => rfl
    | cons b bs => cases hbs
  | cons c cs ih =>
    obtain ⟨hc, hcs⟩ := List.forall_mem_cons.mp hcs
    obtain ⟨x, stage, rfl⟩ := List.exists_cons_of_ne_nil hstage
    cases bs with
    | nil => cases hbs
    | cons b bs =>
      simp only [targetAnswers, h.q, List.head?_cons, Option.all_some, Bool.and_eq_true, beq_iff_eq,
        hc] at hbs
      obtain ⟨rfl, hrest⟩ := hbs
      have next := h.low d c.2
      rw [shiftStage, if_neg hstage, List.tail_cons] at next
      rw [ih hcs (by simp) next hrest]
      simp

/-! ### RDID against the target -/

theorem forall_fst_of_map_eq_replicate {cs : List (Bool × Bool)} {n : Nat} {tms : Bool}
    (h : cs.map Prod.fst = List.replicate n tms) : cs.length = n ∧ ∀ c ∈ cs, c.1 = tms := by
  obtain ⟨hlength, hall⟩ := List.eq_replicate_iff.mp h
  exact ⟨by rwa [List.length_map] at hlength, fun c hc => hall _ (List.mem_map_of_mem hc)⟩

/-- The TMS levels of `RDID` take the target to Shift-DR with the identification captured, before 32 cycles
with TMS low. -/
theorem rdid_shifts_idcode {c : Config} (hwf : c.wf = true) (d : Device) (t : Target)
    {cs : List (Bool × Bool)} (hcs : cs.map Prod.fst = (rdidCycles c).map Prod.fst) :
    ∃ before capture, cs = before ++ capture ∧ before.length = rstCount c + 3 ∧ capture.length = 32
      ∧ (∀ x ∈ capture, x.1 = false) ∧ ShiftingDr (captureAnswers d.id) (targetRun d t before) := by
  rw [rdidCycles_eq, List.map_append, List.map_append, List.map_append, List.map_replicate, List.map_replicate,
    List.map_replicate] at hcs
  obtain ⟨before, capture, rfl, hbefore, hcapture⟩ := List.map_eq_append_iff.mp hcs
  obtain ⟨rst, select, rfl, hrst, hselect⟩ := List.map_eq_append_iff.mp hbefore
  obtain ⟨highs, lows, rfl, hhighs, hlows⟩ := List.map_eq_append_iff.mp hrst
  obtain ⟨lengthCapture, lowCapture⟩ := forall_fst_of_map_eq_replicate hcapture
  obtain ⟨lengthHighs, allHigh⟩ := forall_fst_of_map_eq_replicate hhighs
  obtain ⟨lengthLows, allLow⟩ := forall_fst_of_map_eq_replicate hlows
  have hreset := six_le_nReset_of_wf hwf
  have hidle := nIdle_pos_of_wf hwf
  obtain ⟨htap, hsel⟩ := idleAtIdcode_of_rst d t allHigh allLow (by omega) (by omega)
  simp only [List.map_cons, List.map_nil, List.map_eq_cons_iff, List.map_eq_nil_iff] at hselect
  obtain ⟨⟨_, a⟩, _, rfl, rfl, ⟨_, b⟩, _, rfl, rfl, ⟨_, e⟩, _, rfl, rfl, rfl⟩ := hselect
  refine ⟨_, capture, rfl, ?_, lengthCapture, lowCapture, ?_⟩
  · simp [lengthHighs, lengthLows, rstCount, Nat.add_assoc]
  · rw [targetRun_append]
    have shifting := shiftingDr_of_capture d (.inl htap) a b e
    rwa [hsel] at shifting

theorem captureAnswers_length (v : Word) : (captureAnswers v).length = 32 := by
  simp [captureAnswers]

/-- Settles O54: the answers of the capture are the bits of the identification, lowest first. -/
theorem rdidReadsTheReferenceTarget : Obligations.RdidReadsTheReferenceTarget := by
  intro s p d t0 cs hwf hready hcs hanswers
  obtain ⟨before, capture, rfl, hbefore, hcapture, hlow, shifting⟩ := rdid_shifts_idcode hwf d t0 hcs
  constructor
  · rw [List.length_append, answersFrom_add] at hanswers
    have answers := shifting.answers_eq hlow (List.ne_nil_of_length_pos (by simp [captureAnswers]))
      (targetAnswers_append (answersFrom_length s 0 _) hanswers)
    rw [hbefore, hcapture, Nat.zero_add, List.take_left' (captureAnswers_length d.id)] at answers
    exact rdidReturnsTheFixedCapture s p d.id hready answers
  · rw [targetRun_append, targetRun_tap, shifting.tap]
    exact tapRun_stays rfl hlow

/-! ### BYP against the target -/

/-- The controller is in Shift-IR with `stage` in the instruction register's stage. -/
def ShiftingIr (stage : List Bool) (t : Target) : Prop := t.tap = .shiftIr ∧ t.irs = stage

theorem shiftingIr_of_capture (d : Device) {t : Target} (h : t.tap = .runTestIdle) :
    ShiftingIr d.irCapture (targetRun d t seqIdleToShiftIr) := by
  rw [seqIdleToShiftIr_eq]
  simp [ShiftingIr, targetCycle, fallingEdge, risingEdge, h, tapNext]

/-- `n` ones shifted into a stage `bits`: the lowest bits are lost, ones stand at the top. -/
def onesShiftedIn (bits : List Bool) (n : Nat) : List Bool := (bits ++ List.replicate n true).drop n

theorem onesShiftedIn_zero (bits : List Bool) : onesShiftedIn bits 0 = bits := by
  simp [onesShiftedIn]

theorem shiftStage_onesShiftedIn {bits : List Bool} (h : bits ≠ []) (n : Nat) :
    shiftStage (onesShiftedIn bits n) true = onesShiftedIn bits (n + 1) := by
  have pos : 0 < bits.length := List.length_pos_of_ne_nil h
  have inside : n < (bits ++ List.replicate n true).length := by
    rw [List.length_append, List.length_replicate]
    omega
  have nonempty : onesShiftedIn bits n ≠ [] := by
    rw [onesShiftedIn, Ne, List.drop_eq_nil_iff]
    omega
  rw [shiftStage, if_neg nonempty, onesShiftedIn, onesShiftedIn, List.tail_drop, List.replicate_succ',
    ← List.append_assoc, List.drop_append_of_le_length (l₁ := bits ++ List.replicate n true) inside]

/-- As many ones as the stage is long fill it. -/
theorem onesShiftedIn_all {bits : List Bool} {n : Nat} (h : bits.length ≤ n) :
    (onesShiftedIn bits n).all id = true := by
  rw [onesShiftedIn, List.drop_append, List.drop_eq_nil_of_le h, List.nil_append, List.drop_replicate,
    List.all_replicate]
  simp

theorem ShiftingIr.irs_cycle {stage : List Bool} {t : Target} (h : ShiftingIr stage t) (d : Device)
    (tms tdi : Bool) : (targetCycle d tms tdi t).irs = shiftStage stage tdi := by
  obtain ⟨htap, hirs⟩ := h
  cases tms <;> simp [targetCycle, fallingEdge, risingEdge, htap, hirs]

/-- Ones shifted in with TMS low. -/
theorem ShiftingIr.ones {d : Device} {bits : List Bool} (hbits : bits ≠ []) (n : Nat) {t : Target}
    (h : ShiftingIr bits t) :
    ShiftingIr (onesShiftedIn bits n) (targetRun d t (List.replicate n (false, true))) := by
  induction n with
  | zero => rwa [onesShiftedIn_zero]
  | succ n ih =>
    rw [List.replicate_succ', targetRun_append, targetRun_cons, targetRun_nil]
    refine ⟨?_, ?_⟩
    · rw [targetCycle_tap, ih.1]
      rfl
    · rw [ih.irs_cycle d, shiftStage_onesShiftedIn hbits]

/-- The eight ones of the BYPASS instruction, the last with TMS high. -/
theorem loadBypass_exits {d : Device} {bits : List Bool} (hbits : bits ≠ []) {t : Target}
    (h : ShiftingIr bits t) :
    (targetRun d t seqLoadBypass).tap = .exit1Ir
      ∧ (targetRun d t seqLoadBypass).irs = onesShiftedIn bits 8 := by
  have seven := h.ones (d := d) hbits 7
  rw [seqLoadBypass_eq, targetRun_append, targetRun_cons, targetRun_nil]
  refine ⟨?_, ?_⟩
  · rw [targetCycle_tap, seven.1]
    rfl
  · rw [seven.irs_cycle d, shiftStage_onesShiftedIn hbits]

/-- From Exit1-IR with all ones in the stage, Update-IR selects the bypass register, which is captured. -/
theorem bypass_captured {d : Device} {t : Target} (htap : t.tap = .exit1Ir) (hirs : t.irs.all id = true) :
    ShiftingDr [false] (targetRun d t seqExitIrToShiftDr) := by
  have updated : (targetCycle d true false t).tap = .updateIr := by
    rw [targetCycle_tap, htap]
    rfl
  have selected : (targetCycle d true false t).sel = .bypass := by
    have noZero : false ∉ t.irs := fun hmem => absurd (List.all_eq_true.mp hirs false hmem) (by decide)
    simp [targetCycle, fallingEdge, risingEdge, htap, tapNext, noZero]
  have shifting := shiftingDr_of_capture d (.inr updated) false false false
  rw [selected] at shifting
  rwa [seqExitIrToShiftDr_eq, targetRun_cons]

/-- A device of R177 has an instruction register of 1 to 8 bits. -/
theorem irCapture_length_of_deviceOk {d : Device} (h : deviceOk d = true) :
    1 ≤ d.irCapture.length ∧ d.irCapture.length ≤ 8 := by
  simp only [deviceOk, Bool.and_eq_true, decide_eq_true_eq] at h
  obtain ⟨⟨⟨hlow, hhigh⟩, -⟩, -⟩ := h
  exact ⟨hlow, hhigh⟩

/-- The preamble of `BYP` leaves the target shifting its captured bypass bit, whatever its state was. -/
theorem bypPreamble_shifts_bypass {c : Config} (hwf : c.wf = true) {d : Device} (hd : deviceOk d = true)
    (t : Target) : ShiftingDr [false] (targetRun d t (bypPreambleCycles c)) := by
  have hreset := six_le_nReset_of_wf hwf
  have hidle := nIdle_pos_of_wf hwf
  obtain ⟨hpos, hlength⟩ := irCapture_length_of_deviceOk hd
  have idle : IdleAtIdcode (targetRun d t (rstCycles c)) :=
    idleAtIdcode_of_rst d t (by simp) (by simp) (by simp; omega) (by simpa)
  obtain ⟨htap, hirs⟩ :=
    loadBypass_exits (List.ne_nil_of_length_pos hpos) (shiftingIr_of_capture d idle.1)
  rw [bypPreambleCycles, targetRun_append, targetRun_append, targetRun_append]
  exact bypass_captured htap (hirs ▸ onesShiftedIn_all hlength)

/-- One bypass bit of 0 ahead of the streamed pattern is an echo with delay 1. -/
theorem bypass_stream_eq_echo (c : Config) (n : Nat) :
    ([false] ++ (streamCycles c (n + 1)).map Prod.snd).take (n + 1) = echoAnswers c 1 (n + 1) := by
  have length : ([false] ++ (streamCycles c n).map Prod.snd).length = n + 1 := by simp
  rw [streamCycles_succ, List.map_append, ← List.append_assoc, List.take_left' length, echoAnswers,
    List.range_succ_eq_map, List.map_cons, List.map_map, streamCycles, List.map_map]
  rfl

/-- Settles O55: the stream is an echo with delay 1 for 33 cycles, long enough for its match. -/
theorem bypReturnsOneOnTheReferenceTarget : Obligations.BypReturnsOneOnTheReferenceTarget := by
  intro s p d t0 hwf hready _ hd hanswers
  obtain ⟨t, n, hexec, ends, ran⟩ := exec_byp_ready hready
  rw [answersFrom_add] at hanswers
  have lowStream : ∀ c ∈ streamCycles s.cfg 33, c.1 = false := by simp [streamCycles]
  have echoes := (bypPreamble_shifts_bypass hwf hd t0).answers_eq lowStream (by simp)
    (targetAnswers_append (by simp) hanswers)
  rw [streamCycles_length, bypass_stream_eq_echo, echoAnswers, Nat.zero_add] at echoes
  have echo (i : Nat) (hi : i < 33) := answerAt_of_answersFrom_eq echoes hi
  obtain ⟨rfl, hres⟩ := ends.of_echo (n := 1) (pattern_bit_zero_of_wf hwf) (by decide)
    (fun i hi => by rw [echo i (by omega), if_pos hi])
    (fun i hi => by
      rw [echo (1 + i) (by omega), if_neg (by omega), Nat.add_sub_cancel_left, Nat.mod_eq_of_lt hi])
  have hreads := ran.frame.reads_eq
  rw [List.length_append, bypPreambleCycles_length, streamCycles_length] at hreads
  exact ⟨t, hexec, hres, hreads⟩

end Sys2Proof.Machine
end
